-- ==== Sys2Proof/Word.lean ====
section
/-! DEFINITION. Word.lean: the machine's word, address and register-index types (R8). Every value of the machine is
an unsigned 8-bit number (R10), so a register, a cell, the program counter and an address are all `BitVec 8`, whose
arithmetic wraps modulo 256. -/

namespace Sys2Proof

/-- An 8-bit value: a register, a memory cell, an opcode or an operand byte (R8, R21, R31). -/
abbrev Byte := BitVec 8

/-- An 8-bit address; every address computation is modulo 256 (R50). -/
abbrev Addr := BitVec 8

/-- The index of a general register, R0 to R7 (R21). -/
abbrev Reg := Fin 8

end Sys2Proof
end

