-- ==== Sys2Proof/Config.lean ====
section
/-! DEFINITION. Config.lean: the parameters of the machine: the fixed ones (R8) and the four the spec leaves open
(R9), as plain data that the model takes as an argument. The default values stand in Decode.lean. The model has no
free value: the spec leaves no result undefined. -/

namespace Sys2Proof

/-- `SP_INDEX`: the stack pointer is register 7 (R8, R22). -/
abbrev spIndex : Reg := 7

/-- `SP_INIT`: the reset value of R7 and the stack-underflow threshold (R8, R40, R162). -/
def spInit : Byte := 0xF4

/-- `MEMSIZE`: the number of memory cells (R8, R31). -/
def memSize : Nat := 256

/-- The thirteen operations of R76 by name: the closed set an opcode byte is looked up in (R102). -/
inductive Mnemonic where
  | hlt | ldi | prn | add | mul | push | pop | call | ret | cmp | jmp | jeq | jne
deriving DecidableEq, Repr

/-- `DECLARED_SET` (R9): whether CMP, JMP, JEQ and JNE are recognized. -/
inductive DeclaredSet where
  /-- All thirteen opcodes are recognized. -/
  | full
  /-- Only the nine dispatched opcodes are recognized. -/
  | dispatched
deriving DecidableEq, Repr

/-- `STACK_POLICY` (R9): what a stack overflow or underflow does. -/
inductive StackPolicy where
  /-- Overflow and underflow fault (R161, R162). -/
  | fault
  /-- The stack pointer wraps modulo 256 (R163). -/
  | wrap
deriving DecidableEq, Repr

/-- `OPCODE_MAP` (R9): the byte value of each mnemonic. The spec gives default values only (R76) and asks of any map
what R77 says; `OpcodeMap.wf` in WellFormed.lean is that condition. -/
structure OpcodeMap where
  hlt : Byte
  ldi : Byte
  prn : Byte
  add : Byte
  mul : Byte
  push : Byte
  pop : Byte
  call : Byte
  ret : Byte
  cmp : Byte
  jmp : Byte
  jeq : Byte
  jne : Byte
deriving DecidableEq, Repr

/-- The parameters R9 leaves open. -/
structure Config where
  declaredSet : DeclaredSet
  stackPolicy : StackPolicy
  opcodeMap : OpcodeMap
  /-- `STACK_FAULT_EXIT_STATUS`: the host's exit status for a stack fault (R37). -/
  stackFaultExitStatus : Nat
deriving DecidableEq, Repr

end Sys2Proof
end

