-- ==== Sys2Proof/Syntax.lean ====
section
/-! DEFINITION. Syntax.lean: the instructions, one constructor per row of spec/opcode_table.json, operands already
pulled out of the operand bytes: a register operand is the register it names (R79), an immediate is the byte (R78). -/

namespace Sys2Proof

/-- The instructions of R76, in the table's order. -/
inductive Instr where
  /-- HLT: halt (R120). -/
  | hlt
  /-- LDI Ra, imm: load immediate (R122). -/
  | ldi (a : Reg) (imm : Byte)
  /-- PRN Ra: print register (R124). -/
  | prn (a : Reg)
  /-- ADD Ra, Rb (R142). -/
  | add (a b : Reg)
  /-- MUL Ra, Rb (R144). -/
  | mul (a b : Reg)
  /-- PUSH Ra (R164). -/
  | push (a : Reg)
  /-- POP Ra (R165). -/
  | pop (a : Reg)
  /-- CALL Ra (R166). -/
  | call (a : Reg)
  /-- RET (R167). -/
  | ret
  /-- CMP Ra, Rb (R146). -/
  | cmp (a b : Reg)
  /-- JMP Ra (R181). -/
  | jmp (a : Reg)
  /-- JEQ Ra (R182). -/
  | jeq (a : Reg)
  /-- JNE Ra (R183). -/
  | jne (a : Reg)
deriving DecidableEq, Repr

end Sys2Proof
end

