-- ==== Sys2Proof/Decode.lean ====
section
/-! DEFINITION. Decode.lean: the opcode byte's fields (R71, R72), the default parameters (R9, R76), looking an opcode
up (R102), decoding bytes (R74, R75, R79), and the encoder written from the same formats. -/

namespace Sys2Proof

/-! ## The operations' own data (R74, R76, R102) -/

/-- Every mnemonic, in the order of R76. -/
def Mnemonic.all : List Mnemonic :=
  [.hlt, .ldi, .prn, .add, .mul, .push, .pop, .call, .ret, .cmp, .jmp, .jeq, .jne]

/-- How many operand bytes follow the opcode (R74, R76). -/
def Mnemonic.operandCount : Mnemonic → Nat
  | .hlt => 0 | .ldi => 2 | .prn => 1 | .add => 2 | .mul => 2 | .push => 1 | .pop => 1
  | .call => 1 | .ret => 0 | .cmp => 2 | .jmp => 1 | .jeq => 1 | .jne => 1

/-- Whether the handler itself assigns pc (R76, R77). -/
def Mnemonic.setsPc : Mnemonic → Bool
  | .hlt => false | .ldi => false | .prn => false | .add => false | .mul => false
  | .push => false | .pop => false | .call => true | .ret => true | .cmp => false
  | .jmp => true | .jeq => true | .jne => true

/-- Whether the row belongs to the declared set only, and so is recognized only under `DECLARED_SET = Full`
(the "set" column of R76). -/
def Mnemonic.declaredOnly : Mnemonic → Bool
  | .hlt => false | .ldi => false | .prn => false | .add => false | .mul => false
  | .push => false | .pop => false | .call => false | .ret => false | .cmp => true
  | .jmp => true | .jeq => true | .jne => true

/-- The operation an instruction performs. -/
def Instr.mnemonic : Instr → Mnemonic
  | .hlt => .hlt
  | .ldi _ _ => .ldi
  | .prn _ => .prn
  | .add _ _ => .add
  | .mul _ _ => .mul
  | .push _ => .push
  | .pop _ => .pop
  | .call _ => .call
  | .ret => .ret
  | .cmp _ _ => .cmp
  | .jmp _ => .jmp
  | .jeq _ => .jeq
  | .jne _ => .jne

/-! ## The opcode byte (R71, R72, R76) -/

/-- The byte a map gives a mnemonic. -/
def OpcodeMap.byteOf (m : OpcodeMap) : Mnemonic → Byte
  | .hlt => m.hlt | .ldi => m.ldi | .prn => m.prn | .add => m.add | .mul => m.mul
  | .push => m.push | .pop => m.pop | .call => m.call | .ret => m.ret | .cmp => m.cmp
  | .jmp => m.jmp | .jeq => m.jeq | .jne => m.jne

/-- The default opcode map of R76, the LS-8 values (PRESUMED by the spec itself, log 2). -/
def OpcodeMap.ls8 : OpcodeMap where
  hlt := 0x01
  ldi := 0x82
  prn := 0x47
  add := 0xA0
  mul := 0xA2
  push := 0x45
  pop := 0x46
  call := 0x50
  ret := 0x11
  cmp := 0xA7
  jmp := 0x54
  jeq := 0x55
  jne := 0x56

/-- The default parameters of R9 (logs 2 to 5). -/
def Config.default : Config where
  declaredSet := .full
  stackPolicy := .fault
  opcodeMap := .ls8
  stackFaultExitStatus := 4

/-- What the decoder of R72 answers for an opcode byte: the operand count and the sets_pc flag. -/
structure OpShape where
  operandCount : Nat
  setsPc : Bool
deriving DecidableEq, Repr

/-- The decoder of R72, total on every byte: the count is bits 7:6, so 3 is possible (R73, log 13), and sets_pc is
bit 4. -/
def opShape (op : Byte) : OpShape where
  operandCount := (op.extractLsb 7 6).toNat
  setsPc := op.getLsbD 4

/-- Whether an operation is recognized under the active `DECLARED_SET` (R76, R80). -/
def Config.recognizes (c : Config) (m : Mnemonic) : Bool :=
  match c.declaredSet with
  | .full => true
  | .dispatched => !m.declaredOnly

/-- Dispatch's lookup (R102): the whole byte, among the recognized opcodes. -/
def Config.lookup (c : Config) (op : Byte) : Option Mnemonic :=
  Mnemonic.all.find? fun m => c.recognizes m && c.opcodeMap.byteOf m == op

/-! ## Decoding (R74, R75, R78, R79) -/

/-- The register a register-operand byte names: x[b mod 8], bits 7:3 ignored (R23, R79). -/
def regOf (b : Byte) : Reg := Fin.ofNat 8 b.toNat

/-- The instruction an operation and its operand bytes make, by the operation's format (R74); a format with fewer
operands does not look at the bytes it lacks. -/
def Mnemonic.instr (m : Mnemonic) (o1 o2 : Byte) : Instr :=
  match m with
  | .hlt => .hlt
  | .ldi => .ldi (regOf o1) o2
  | .prn => .prn (regOf o1)
  | .add => .add (regOf o1) (regOf o2)
  | .mul => .mul (regOf o1) (regOf o2)
  | .push => .push (regOf o1)
  | .pop => .pop (regOf o1)
  | .call => .call (regOf o1)
  | .ret => .ret
  | .cmp => .cmp (regOf o1) (regOf o2)
  | .jmp => .jmp (regOf o1)
  | .jeq => .jeq (regOf o1)
  | .jne => .jne (regOf o1)

/-- Why bytes are no instruction. -/
inductive DecodeError where
  /-- There is no byte at all. -/
  | noBytes
  /-- The first byte is not recognized under the active parameters (R80). -/
  | unrecognizedOpcode (op : Byte)
  /-- The opcode is recognized and fewer bytes follow than its operand count. -/
  | truncated (m : Mnemonic)
deriving DecidableEq, Repr

/-- Decode the instruction at the head of a byte sequence and give the bytes after it. -/
def decodeBytes (c : Config) : List Byte → Except DecodeError (Instr × List Byte)
  | [] => .error .noBytes
  | op :: rest =>
    match c.lookup op with
    | none => .error (.unrecognizedOpcode op)
    | some m =>
      if rest.length < m.operandCount then .error (.truncated m)
      else .ok (m.instr (rest.getD 0 0) (rest.getD 1 0), rest.drop m.operandCount)

/-! ## Encoding (R74) -/

/-- The operand byte that names a register with bits 7:3 zero (R79). -/
def regByte (r : Reg) : Byte := BitVec.ofNat 8 r.val

/-- The operand bytes of an instruction, in the order of R74. -/
def Instr.operandBytes : Instr → List Byte
  | .hlt => []
  | .ldi a imm => [regByte a, imm]
  | .prn a => [regByte a]
  | .add a b => [regByte a, regByte b]
  | .mul a b => [regByte a, regByte b]
  | .push a => [regByte a]
  | .pop a => [regByte a]
  | .call a => [regByte a]
  | .ret => []
  | .cmp a b => [regByte a, regByte b]
  | .jmp a => [regByte a]
  | .jeq a => [regByte a]
  | .jne a => [regByte a]

/-- The bytes of an instruction, opcode first (R70, R74). -/
def encode (c : Config) (i : Instr) : List Byte :=
  c.opcodeMap.byteOf i.mnemonic :: i.operandBytes

/-! ## The host's table words -/

/-- The three bytes of an instruction given as one number whose low byte is the first byte; every bit at or above
`nbits` is 0. -/
def wordBytes (nbits w : Nat) : List Byte :=
  let v := w % 2 ^ nbits
  [BitVec.ofNat 8 v, BitVec.ofNat 8 (v / 256), BitVec.ofNat 8 (v / 65536)]

/-- The instruction the decoder reads from a table word under the default parameters. -/
def decodeTableWord (nbits w : Nat) : Option Instr :=
  match decodeBytes .default (wordBytes nbits w) with
  | .ok (i, _) => some i
  | .error _ => none

end Sys2Proof
end

