-- ==== Sys2Proof/Machine/State.lean ====
section
/-! DEFINITION. Machine/State.lean: the whole state of R20, the reasons a step can stop, and the state after reset
(R40). Two fields are the model's own: the output events seen so far and the parameters (logs 1 and 6). -/

namespace Sys2Proof.Machine

/-- The kinds of fault (R32, R200). -/
inductive FaultKind where
  /-- The opcode byte is not recognized (R103, R202). -/
  | unrecognizedOpcode
  /-- PUSH or CALL with SP = 0x00 under `STACK_POLICY = Fault` (R161). -/
  | stackOverflow
  /-- POP or RET with SP at or above SP_INIT under `STACK_POLICY = Fault` (R162). -/
  | stackUnderflow
deriving DecidableEq, Repr

/-- The run state (R32), with the fault record when it is FAULTED. -/
inductive RunState where
  | running
  | halted
  | faulted (kind : FaultKind) (fpc fop : Byte)
deriving DecidableEq, Repr

/-- Memory as its nonzero cells: addresses strictly rising, below 256, no cell holding 0x00 (`Memory.wf` in Ops.lean);
an unlisted address reads 0x00, the reset content of R40. -/
abbrev Memory := List Host.Cell

/-- The architectural state of R20, and the model's own fields `out` and `config`. -/
structure State where
  /-- The general registers x[0] to x[7]; x[7] is SP (R21, R22). -/
  regs : Vector Byte 8
  /-- The program counter (R26). -/
  pc : Byte
  /-- The flags register as stored; `State.readFl` reads it with bits 7:3 zero (R28). -/
  fl : Byte
  /-- The memory M[0..255] (R31). -/
  mem : Memory
  /-- The run state (R32). -/
  run : RunState
  /-- The values of the `Out` events so far, oldest first (R35): the model's own field, which no rule reads (log 6). -/
  out : List Byte
  /-- The parameters of R9: the model's own field, which no step changes (log 1). -/
  config : Config
deriving DecidableEq, Repr

/-- Why there is no next state. A fault of the spec (R200) is no value of this type: it is taken, as a next state whose
run state is FAULTED (R201, log 7). -/
inductive Fault where
  /-- Raised by `step` in HALTED, from which no cycle runs (R100). Safe: the hardware has no step there either. -/
  | noStepFromHalted
  /-- Raised by `step` in FAULTED, from which no cycle runs (R100), with the fault record. Safe: the hardware has no
  step there either. -/
  | noStepFromFaulted (kind : FaultKind) (fpc fop : Byte)
deriving DecidableEq, Repr

/-- What the model refuses. -/
inductive Refusal where
  /-- Raised by an arm of `exec` whose instruction has no meaning yet; no arm does. Safe. -/
  | notModelled (mnemonic : String)
  /-- Raised by `load` for an image longer than the memory, which the core excludes (R36). Safe: no machine starts. -/
  | imageTooLong (length : Nat)
deriving DecidableEq, Repr

/-- The machine right after reset under given parameters, nothing loaded (R40, R230 step 1). -/
def State.resetWith (c : Config) : State where
  regs := #v[0x00, 0x00, 0x00, 0x00, 0x00, 0x00, 0x00, spInit]
  pc := 0x00
  fl := 0x00
  mem := []
  run := .running
  out := []
  config := c

/-- The machine right after reset under the default parameters. -/
def State.reset : State := State.resetWith .default

end Sys2Proof.Machine
end

