-- ==== Sys2Proof/Machine/Ops.lean ====
section
/-! DEFINITION. Machine/Ops.lean: the named operations over memory and registers (R11, R24, R51), the stack steps
(R160), the pc (R104, R105), the output event (R35), and taking a fault (R201). There is no return from a fault
(R205). -/

namespace Sys2Proof.Machine

/-! ## Memory (R50, R51) -/

/-- What an unlisted address reads as: 0x00, what reset leaves in every cell (R40, log 14). -/
def Memory.unlisted : Byte := 0x00

/-- The canonical form: addresses strictly rising and below 256, no cell that holds what an unlisted address reads. -/
def Memory.wf (m : Memory) : Bool :=
  decide (m.Pairwise fun x y => x.1 < y.1) && m.all fun x => decide (x.1 < memSize) && x.2 != Memory.unlisted

/-- `MemRead(a, 1)` (R51): no side effect. -/
def Memory.read (m : Memory) (a : Addr) : Byte :=
  match m.find? fun x => x.1 == a.toNat with
  | some x => x.2
  | none => Memory.unlisted

/-- Put a cell before the first cell of a higher address. -/
def Memory.insert (k : Nat) (v : Byte) : Memory → Memory
  | [] => [(k, v)]
  | x :: rest => if k < x.1 then (k, v) :: x :: rest else x :: Memory.insert k v rest

/-- `MemWrite(a, 1, v)` (R51): changes that one cell, keeping the canonical form. -/
def Memory.write (m : Memory) (a : Addr) (v : Byte) : Memory :=
  let others := m.filter fun x => x.1 != a.toNat
  if v = Memory.unlisted then others else Memory.insert a.toNat v others

/-- Read the cell at an address. -/
def State.memRead (s : State) (a : Addr) : Byte := s.mem.read a

/-- Write the cell at an address. -/
def State.memWrite (s : State) (a : Addr) (v : Byte) : State := { s with mem := s.mem.write a v }

/-! ## Registers (R21, R24) -/

/-- Read a general register. -/
def State.readReg (s : State) (r : Reg) : Byte := s.regs[r]

/-- Write a general register; none is hardwired (R21). -/
def State.writeReg (s : State) (r : Reg) (v : Byte) : State := { s with regs := s.regs.set r v }

/-- SP, another name for x[7] (R11, R22). -/
def State.sp (s : State) : Byte := s.readReg spIndex

/-! ## The program counter (R26, R104, R105) -/

/-- Assign pc, as a handler with sets_pc does (R105). -/
def State.jump (s : State) (target : Addr) : State := { s with pc := target }

/-- The address after an operation's bytes: (pc + operand_count + 1) mod 256 (R104). -/
def State.nextPc (s : State) (m : Mnemonic) : Addr := s.pc + BitVec.ofNat 8 (m.operandCount + 1)

/-- The engine's advance past an operation's bytes (R104). -/
def State.advance (s : State) (m : Mnemonic) : State := s.jump (s.nextPc m)

/-! ## The stack steps (R160) -/

/-- The address a push stores to: (SP - 1) mod 256 (R160). -/
def State.pushAddr (s : State) : Addr := s.sp - 1

/-- `SP <- (SP - 1) mod 256`, the first step of a push (R160). -/
def State.decSp (s : State) : State := s.writeReg spIndex s.pushAddr

/-- `SP <- (SP + 1) mod 256`, the last step of a pop (R160). -/
def State.incSp (s : State) : State := s.writeReg spIndex (s.sp + 1)

/-- `MemWrite(SP, 1, v)`, the second step of a push (R160). -/
def State.storeTop (s : State) (v : Byte) : State := s.memWrite s.sp v

/-- `MemRead(SP, 1)`, the first step of a pop (R160). -/
def State.loadTop (s : State) : Byte := s.memRead s.sp

/-! ## Output, halt and fault (R35, R120, R201) -/

/-- `emit Out(v)`: one event, after those before it (R35). -/
def State.emit (s : State) (v : Byte) : State := { s with out := s.out ++ [v] }

/-- `halt`: run becomes HALTED (R120). -/
def State.halt (s : State) : State := { s with run := .halted }

/-- The opcode byte of an operation under the machine's own parameters. -/
def State.opcodeOf (s : State) (m : Mnemonic) : Byte := s.config.opcodeMap.byteOf m

/-- Fault entry (R201): run becomes FAULTED with the kind, the pc and the opcode byte, and nothing else changes. -/
def State.raiseFault (s : State) (kind : FaultKind) (op : Byte) : State :=
  { s with run := .faulted kind s.pc op }

end Sys2Proof.Machine
end

