-- ==== Sys2Proof/Machine/Flags.lean ====
section
/-! DEFINITION. Machine/Flags.lean: the flags register (R28, R29) and what CMP puts into it (R146, R147). ADD and MUL
touch no flag (R141). -/

namespace Sys2Proof.Machine

/-- FL with only bit 0, E (equal), set (R28). -/
def flEqual : Byte := 0x01

/-- FL with only bit 1, G (greater), set (R28). -/
def flGreater : Byte := 0x02

/-- FL with only bit 2, L (less), set (R28). -/
def flLess : Byte := 0x04

/-- What CMP writes to FL: the order of two values as unsigned integers (R146, R147). -/
def compareFlags (x y : Byte) : Byte :=
  if x = y then flEqual else if y.toNat < x.toNat then flGreater else flLess

/-- FL as it reads: bits 7:3 are zero whatever is stored (R28, log 20). -/
def State.readFl (s : State) : Byte := s.fl &&& 0x07

/-- FL.E, the one flag JEQ and JNE read (R29). -/
def State.flagE (s : State) : Bool := s.readFl.getLsbD 0

/-- Write all eight bits of FL, as CMP does (R29). -/
def State.writeFl (s : State) (v : Byte) : State := { s with fl := v }

end Sys2Proof.Machine
end

