-- ==== Sys2Proof/Machine/Operands.lean ====
section
/-! DEFINITION. Machine/Operands.lean: where an instruction's bytes and operands come from: the fetch (R75, R101) and
the stack checks on the operands of the stack instructions (R161, R162). -/

namespace Sys2Proof.Machine

/-- The opcode byte: the cell at pc (R101 step 1). -/
def State.opcodeByte (s : State) : Byte := s.memRead s.pc

/-- Operand byte 1: the cell at (pc + 1) mod 256 (R75). -/
def State.operandByte1 (s : State) : Byte := s.memRead (s.pc + 1)

/-- Operand byte 2: the cell at (pc + 2) mod 256 (R75). -/
def State.operandByte2 (s : State) : Byte := s.memRead (s.pc + 2)

/-- The bytes a cycle fetches (R101): the opcode, and as many operand bytes as its count field says, two at most. -/
def State.fetchBytes (s : State) : List Byte :=
  let n := (opShape s.opcodeByte).operandCount
  s.opcodeByte :: ((if 1 ≤ n then [s.operandByte1] else []) ++ (if 2 ≤ n then [s.operandByte2] else []))

/-- Fetch and decode (R101, R102): the instruction at pc, or why there is none. -/
def State.fetchDecode (s : State) : Except DecodeError (Instr × List Byte) :=
  decodeBytes s.config s.fetchBytes

/-- Whether a push would overflow: `STACK_POLICY = Fault` and SP = 0x00 (R161). -/
def State.pushOverflows (s : State) : Bool :=
  s.config.stackPolicy == .fault && s.sp == 0x00

/-- Whether a pop would underflow: `STACK_POLICY = Fault` and SP at or above SP_INIT, unsigned (R162). -/
def State.popUnderflows (s : State) : Bool :=
  s.config.stackPolicy == .fault && decide (spInit.toNat ≤ s.sp.toNat)

/-- Store the bytes of a sequence from an address on, wrapping at 256 (R50, R53). -/
def State.storeBytes (s : State) (a : Addr) : List Byte → State
  | [] => s
  | b :: rest => (s.memWrite a b).storeBytes (a + 1) rest

/-- Place an instruction given as a table word at pc, and let the next step be a cycle (log 15). -/
def State.placeWord (s : State) (nbits w : Nat) : State :=
  { s.storeBytes s.pc (wordBytes nbits w) with run := .running }

end Sys2Proof.Machine
end

