-- ==== Sys2Proof/Machine/Alu.lean ====
section
/-! DEFINITION. Machine/Alu.lean: ADD, MUL and CMP (42_alu.md). Sum and product are computed exactly and then reduced
to their low 8 bits (R141). -/

namespace Sys2Proof.Machine

/-- The sum modulo 256 (R141, R142). -/
def aluAdd (x y : Byte) : Byte := BitVec.ofNat 8 (x.toNat + y.toNat)

/-- The product modulo 256 (R141, R144). -/
def aluMul (x y : Byte) : Byte := BitVec.ofNat 8 (x.toNat * y.toNat)

/-- The shape ADD and MUL share (R140): a result of x[a] and x[b], written to x[a]. -/
def State.binary (s : State) (f : Byte → Byte → Byte) (a b : Reg) : State :=
  s.writeReg a (f (s.readReg a) (s.readReg b))

/-- ADD (R142). -/
def execAdd (a b : Reg) (s : State) : Host.Outcome State Fault Refusal :=
  .next ((s.binary aluAdd a b).advance .add)

/-- MUL (R144). -/
def execMul (a b : Reg) (s : State) : Host.Outcome State Fault Refusal :=
  .next ((s.binary aluMul a b).advance .mul)

/-- CMP (R146): FL becomes the order of the two register values. Whether the byte is recognized at all is the
decoder's affair (log 18). -/
def execCmp (a b : Reg) (s : State) : Host.Outcome State Fault Refusal :=
  .next ((s.writeFl (compareFlags (s.readReg a) (s.readReg b))).advance .cmp)

end Sys2Proof.Machine
end

