-- ==== Sys2Proof/Machine/Branch.lean ====
section
/-! DEFINITION. Machine/Branch.lean: JMP, JEQ and JNE (44_branch.md, whose semantics are the spec's decision D3,
log 10). A conditional jump that is not taken assigns pc itself (R180). -/

namespace Sys2Proof.Machine

/-- A conditional jump of one register operand (R180): to x[a] if taken, else to the address after its bytes. -/
def State.branch (s : State) (m : Mnemonic) (taken : Bool) (a : Reg) : State :=
  s.jump (if taken then s.readReg a else s.nextPc m)

/-- JMP (R181). -/
def execJmp (a : Reg) (s : State) : Host.Outcome State Fault Refusal :=
  .next (s.jump (s.readReg a))

/-- JEQ (R182): taken if E is set. -/
def execJeq (a : Reg) (s : State) : Host.Outcome State Fault Refusal :=
  .next (s.branch .jeq s.flagE a)

/-- JNE (R183): taken if E is clear. -/
def execJne (a : Reg) (s : State) : Host.Outcome State Fault Refusal :=
  .next (s.branch .jne (!s.flagE) a)

end Sys2Proof.Machine
end

