-- ==== Sys2Proof/Machine/Control.lean ====
section
/-! DEFINITION. Machine/Control.lean: HLT, LDI and PRN (41_control_io.md). The engine's advance (R104) ends each of
them, since none has sets_pc. -/

namespace Sys2Proof.Machine

/-- HLT (R120): run becomes HALTED, then the engine's advance. -/
def execHlt (s : State) : Host.Outcome State Fault Refusal :=
  .next (s.halt.advance .hlt)

/-- LDI (R122): x[a] becomes the immediate byte. -/
def execLdi (a : Reg) (imm : Byte) (s : State) : Host.Outcome State Fault Refusal :=
  .next ((s.writeReg a imm).advance .ldi)

/-- PRN (R124): one event with the value of x[a]. -/
def execPrn (a : Reg) (s : State) : Host.Outcome State Fault Refusal :=
  .next ((s.emit (s.readReg a)).advance .prn)

end Sys2Proof.Machine
end

