-- ==== Sys2Proof/Machine/Stack.lean ====
section
/-! DEFINITION. Machine/Stack.lean: PUSH, POP, CALL and RET (43_stack.md). Each tests its stack condition before it
writes anything (R106), and its steps run in the listed order, each seeing the one before (R236, log 9). -/

namespace Sys2Proof.Machine

/-- PUSH (R164): x[a] is read after the decrement. -/
def execPush (a : Reg) (s : State) : Host.Outcome State Fault Refusal :=
  if s.pushOverflows then .next (s.raiseFault .stackOverflow (s.opcodeOf .push))
  else
    let lowered := s.decSp
    .next ((lowered.storeTop (lowered.readReg a)).advance .push)

/-- POP (R165): SP is incremented after the write to x[a], so POP R7 increments the popped byte. -/
def execPop (a : Reg) (s : State) : Host.Outcome State Fault Refusal :=
  if s.popUnderflows then .next (s.raiseFault .stackUnderflow (s.opcodeOf .pop))
  else .next ((s.writeReg a s.loadTop).incSp.advance .pop)

/-- CALL (R166): pushes the address after the CALL, then jumps to x[a] read after the decrement. -/
def execCall (a : Reg) (s : State) : Host.Outcome State Fault Refusal :=
  if s.pushOverflows then .next (s.raiseFault .stackOverflow (s.opcodeOf .call))
  else
    let lowered := s.decSp
    let pushed := lowered.storeTop (lowered.nextPc .call)
    .next (pushed.jump (pushed.readReg a))

/-- RET (R167): pc becomes the byte at SP, then SP is incremented. -/
def execRet (s : State) : Host.Outcome State Fault Refusal :=
  if s.popUnderflows then .next (s.raiseFault .stackUnderflow (s.opcodeOf .ret))
  else .next (s.jump s.loadTop).incSp

end Sys2Proof.Machine
end

