-- ==== Sys2Proof/Machine/Step.lean ====
section
/-! DEFINITION. Machine/Step.lean: the cycle of R107 as one function of the state. -/

namespace Sys2Proof.Machine

/-- One cycle (R107): only while RUNNING (R100); fetch and decode (R101, R102); an unrecognized opcode faults (R103);
else the instruction's handler, whose meaning includes the engine's advance (R104). -/
def step (s : State) : Host.Outcome State Fault Refusal :=
  match s.run with
  | .running =>
    match s.fetchDecode with
    | .ok (i, _) => exec i s
    | .error _ => .next (s.raiseFault .unrecognizedOpcode s.opcodeByte)
  | .halted => .fault .noStepFromHalted
  | .faulted kind fpc fop => .fault (.noStepFromFaulted kind fpc fop)

/-- The state with a table word placed where `step` fetches its next instruction (log 15). -/
def State.withFetchWord (s : State) (nbits w : Nat) : State := s.placeWord nbits w

end Sys2Proof.Machine
end

