-- ==== Sys2Proof/Machine/Interface.lean ====
section
/-! DEFINITION. Machine/Interface.lean: the host's transactions other than `Step` (R34): `Load` at reset (R36, R230),
the rendering of `Out` (R35, R124), `Status` and its exit status (R37); and the assembler notation (R12, R84). -/

namespace Sys2Proof.Machine

/-- The reset sequence of R230: create the machine under given parameters and load the image from address 0 (R36).
An image longer than the memory is refused, as the core requires (log 16). -/
def load (c : Config) (image : List Byte) : Host.Outcome State Fault Refusal :=
  if image.length ≤ memSize then .next ((State.resetWith c).storeBytes 0x00 image)
  else .refused (.imageTooLong image.length)

/-- `Status` (R34): the run state, with the fault record when it is FAULTED. -/
def State.status (s : State) : RunState := s.run

/-- The host's exit status (R37); none while the machine runs. -/
def State.exitStatus (s : State) : Option Nat :=
  match s.run with
  | .running => none
  | .halted => some 0
  | .faulted .unrecognizedOpcode _ _ => some 3
  | .faulted .stackOverflow _ _ => some s.config.stackFaultExitStatus
  | .faulted .stackUnderflow _ _ => some s.config.stackFaultExitStatus

/-- What the host's diagnostic stream reports (R37, R202): the pc and the opcode of an unrecognized opcode. DESIGN
CHOICE: the spec states no report for a stack fault and none against one; the model answers none there (log 24). -/
def State.diagnostic (s : State) : Option (Byte × Byte) :=
  match s.run with
  | .running => none
  | .halted => none
  | .faulted .unrecognizedOpcode fpc fop => some (fpc, fop)
  | .faulted .stackOverflow _ _ => none
  | .faulted .stackUnderflow _ _ => none

/-- The decimal digits of a byte, most significant first, no leading zeros (R124). -/
def decimalDigits (v : Byte) : List Nat :=
  let n := v.toNat
  if n < 10 then [n]
  else if n < 100 then [n / 10, n % 10]
  else [n / 100, n / 10 % 10, n % 10]

/-- The bytes the host writes for one `Out(v)`: the digits and a newline (R35, R124), as ASCII (log 17). -/
def renderOut (v : Byte) : List Byte :=
  (decimalDigits v).map (fun d => BitVec.ofNat 8 (0x30 + d)) ++ [0x0A]

/-- Everything the host has written to standard output so far (R35). -/
def State.stdout (s : State) : List Byte := s.out.flatMap renderOut

/-- A register in assembler notation, R0 to R7 (R12, R84). -/
def asmReg (r : Reg) : String := "R" ++ Nat.repr r.val

/-- An instruction in assembler notation: the mnemonic, then its operands in encoding order (R12, R84). -/
def asm : Instr → String
  | .hlt => "HLT"
  | .ldi a imm => "LDI " ++ asmReg a ++ ", " ++ Nat.repr imm.toNat
  | .prn a => "PRN " ++ asmReg a
  | .add a b => "ADD " ++ asmReg a ++ ", " ++ asmReg b
  | .mul a b => "MUL " ++ asmReg a ++ ", " ++ asmReg b
  | .push a => "PUSH " ++ asmReg a
  | .pop a => "POP " ++ asmReg a
  | .call a => "CALL " ++ asmReg a
  | .ret => "RET"
  | .cmp a b => "CMP " ++ asmReg a ++ ", " ++ asmReg b
  | .jmp a => "JMP " ++ asmReg a
  | .jeq a => "JEQ " ++ asmReg a
  | .jne a => "JNE " ++ asmReg a

end Sys2Proof.Machine
end

