-- ==== Sys2Proof/WellFormed.lean ====
section
/-! DEFINITION. WellFormed.lean: the conditions on the parameters and on an instruction. An opcode map keeps R77; an
instruction is well formed under parameters that recognize it (R76, R80). Operands need no check: a register index is
below 8 and an immediate is a byte by their types, and every value of either is legal (R82). -/

namespace Sys2Proof

/-- R77, first condition: bits 7:6 of every opcode hold the instruction's operand count. -/
def OpcodeMap.countsAgree (m : OpcodeMap) : Bool :=
  Mnemonic.all.all fun k => (opShape (m.byteOf k)).operandCount == k.operandCount

/-- R77, second condition: bit 4 of an opcode is set exactly where the handler assigns pc. -/
def OpcodeMap.setsPcAgree (m : OpcodeMap) : Bool :=
  Mnemonic.all.all fun k => (opShape (m.byteOf k)).setsPc == k.setsPc

/-- R77, third condition: the thirteen values are pairwise distinct. -/
def OpcodeMap.distinct (m : OpcodeMap) : Bool :=
  decide (Mnemonic.all.map m.byteOf).Nodup

/-- What R77 asks of any `OPCODE_MAP`. -/
def OpcodeMap.wf (m : OpcodeMap) : Bool := m.countsAgree && m.setsPcAgree && m.distinct

/-- Parameters are well formed when their opcode map is (R77). -/
def Config.wf (c : Config) : Bool := c.opcodeMap.wf

/-- An instruction is well formed under parameters whose `DECLARED_SET` recognizes it (R76, R80). -/
def Instr.wf (c : Config) (i : Instr) : Bool := c.recognizes i.mnemonic

end Sys2Proof
end

