-- ==== Sys2Proof/Safety.lean ====
section
/-! DEFINITION. Safety.lean: the words the statements use: what a step leaves unchanged, runs, the machine's invariant,
and comparing a machine with one that differs in a field. -/

namespace Sys2Proof.Machine

/-! ## Frames -/

/-- Every general register outside the list reads as before. -/
def SameRegsExcept (changed : List Reg) (s t : State) : Prop :=
  ∀ r, r ∉ changed → t.readReg r = s.readReg r

/-- Every memory cell outside the list reads as before. -/
def SameMemExcept (changed : List Addr) (s t : State) : Prop :=
  ∀ a, a ∉ changed → t.memRead a = s.memRead a

/-! ## Runs -/

/-- Zero or more steps lead from one state to another (R109). -/
inductive Reaches : State → State → Prop where
  | refl (s : State) : Reaches s s
  | tail {s t u : State} : Reaches s t → step t = .next u → Reaches s u

/-- A safe state has not faulted (R32). -/
def State.Safe (s : State) : Prop :=
  ∀ kind fpc fop, s.run ≠ .faulted kind fpc fop

/-- A safe run from a state reaches only safe states. -/
def SafeFrom (s : State) : Prop := ∀ t, Reaches s t → t.Safe

/-! ## The invariant -/

/-- What the run state says of the rest of the machine. A HALTED machine stands one past a HLT (R104, R120), by the
spec's decision D6 (log 8). A FAULTED machine stands at the instruction its record names (decision D11, log 7), and the
cause of R200 holds, for the stack faults by decision D5 (log 4). -/
def State.RunRecordTrue (s : State) : Prop :=
  match s.run with
  | .running => True
  | .halted => s.memRead (s.pc - 1) = s.opcodeOf .hlt
  | .faulted kind fpc fop =>
    fpc = s.pc ∧ fop = s.memRead s.pc ∧
    match kind with
    | .unrecognizedOpcode => ∀ m, s.config.recognizes m = true → s.opcodeOf m ≠ fop
    | .stackOverflow =>
      s.config.stackPolicy = .fault ∧ s.sp = 0x00 ∧ (fop = s.opcodeOf .push ∨ fop = s.opcodeOf .call)
    | .stackUnderflow =>
      s.config.stackPolicy = .fault ∧ spInit.toNat ≤ s.sp.toNat ∧
        (fop = s.opcodeOf .pop ∨ fop = s.opcodeOf .ret)

/-- The machine's invariant: parameters as R77 asks, memory in its canonical form, FL one of the four values R28 and
R29 allow and never written under the dispatched set, and a true run record. -/
structure State.Inv (s : State) : Prop where
  config_wf : s.config.wf = true
  mem_wf : s.mem.wf = true
  fl_legal : s.fl ∈ ([0x00, 0x01, 0x02, 0x04] : List Byte)
  fl_unwritten : s.config.declaredSet = .dispatched → s.fl = 0x00
  record_true : s.RunRecordTrue

/-! ## Comparing two machines -/

/-- Apply a function to the next state of an outcome. -/
def mapNext (f : State → State) : Host.Outcome State Fault Refusal → Host.Outcome State Fault Refusal
  | .next s => .next (f s)
  | .fault r => .fault r
  | .refused r => .refused r

end Sys2Proof.Machine
end

