-- ==== Sys2Proof/Certificates/Slice0/Obligations.lean ====
section
/-! DEFINITION. Certificates/Slice0/Obligations.lean: the statements for the provers. An instruction's statement gives
the bytes it is decoded from under every well-formed opcode map, that it completes, its result, and its frame. -/

open Sys2Proof Sys2Proof.Machine

/-! ## The instructions -/

/-- HLT (R120). It halts and, by the spec's decision D6 (log 8), still advances pc by one; nothing else changes and
the exit status is 0 (R37). No cycle runs afterwards (the spec's decision D18), which the model answers by a fault of
its own name (log 7). -/
def Obligations.HltHaltsAndAdvances : Prop :=
  (∀ c : Config, c.wf = true → ∀ rest, decodeBytes c (c.opcodeMap.hlt :: rest) = .ok (.hlt, rest)) ∧
  ∀ s : State, ∃ t, exec .hlt s = .next t ∧
    t.run = .halted ∧ t.exitStatus = some 0 ∧ step t = .fault .noStepFromHalted ∧
    t.pc.toNat = (s.pc.toNat + 1) % 256 ∧ SameRegsExcept [] s t ∧ SameMemExcept [] s t ∧
    t.fl = s.fl ∧ t.out = s.out ∧ t.config = s.config

/-- LDI (R122). The named register becomes the immediate byte, on every operand, R7 included. -/
def Obligations.LdiLoadsImmediate : Prop :=
  (∀ c : Config, c.wf = true → ∀ (o1 imm : Byte) rest,
    decodeBytes c (c.opcodeMap.ldi :: o1 :: imm :: rest) = .ok (.ldi (Fin.ofNat 8 o1.toNat) imm, rest)) ∧
  ∀ (a : Reg) (imm : Byte) (s : State), ∃ t, exec (.ldi a imm) s = .next t ∧
    t.readReg a = imm ∧ SameRegsExcept [a] s t ∧ SameMemExcept [] s t ∧
    t.pc.toNat = (s.pc.toNat + 3) % 256 ∧ t.fl = s.fl ∧ t.run = s.run ∧ t.out = s.out ∧ t.config = s.config

/-- PRN (R124). One output event with the register's value, after those before it; nothing else changes but pc. The
event carries the byte by the spec's decision D10; that the events are kept in State is the model's choice (log 6). -/
def Obligations.PrnEmitsRegister : Prop :=
  (∀ c : Config, c.wf = true → ∀ (o1 : Byte) rest,
    decodeBytes c (c.opcodeMap.prn :: o1 :: rest) = .ok (.prn (Fin.ofNat 8 o1.toNat), rest)) ∧
  ∀ (a : Reg) (s : State), ∃ t, exec (.prn a) s = .next t ∧
    t.out = s.out ++ [s.readReg a] ∧ SameRegsExcept [] s t ∧ SameMemExcept [] s t ∧
    t.pc.toNat = (s.pc.toNat + 2) % 256 ∧ t.fl = s.fl ∧ t.run = s.run ∧ t.config = s.config

/-- ADD (R142). The exact sum modulo 256 into x[a], also where both operands are one register; no flag changes. -/
def Obligations.AddWrapsModulo256 : Prop :=
  (∀ c : Config, c.wf = true → ∀ (o1 o2 : Byte) rest,
    decodeBytes c (c.opcodeMap.add :: o1 :: o2 :: rest) =
      .ok (.add (Fin.ofNat 8 o1.toNat) (Fin.ofNat 8 o2.toNat), rest)) ∧
  ∀ (a b : Reg) (s : State), ∃ t, exec (.add a b) s = .next t ∧
    (t.readReg a).toNat = ((s.readReg a).toNat + (s.readReg b).toNat) % 256 ∧
    SameRegsExcept [a] s t ∧ SameMemExcept [] s t ∧
    t.pc.toNat = (s.pc.toNat + 3) % 256 ∧ t.fl = s.fl ∧ t.run = s.run ∧ t.out = s.out ∧ t.config = s.config

/-- MUL (R144). The low byte of the exact product into x[a]; no flag changes. -/
def Obligations.MulKeepsLowByte : Prop :=
  (∀ c : Config, c.wf = true → ∀ (o1 o2 : Byte) rest,
    decodeBytes c (c.opcodeMap.mul :: o1 :: o2 :: rest) =
      .ok (.mul (Fin.ofNat 8 o1.toNat) (Fin.ofNat 8 o2.toNat), rest)) ∧
  ∀ (a b : Reg) (s : State), ∃ t, exec (.mul a b) s = .next t ∧
    (t.readReg a).toNat = ((s.readReg a).toNat * (s.readReg b).toNat) % 256 ∧
    SameRegsExcept [a] s t ∧ SameMemExcept [] s t ∧
    t.pc.toNat = (s.pc.toNat + 3) % 256 ∧ t.fl = s.fl ∧ t.run = s.run ∧ t.out = s.out ∧ t.config = s.config

/-- CMP (R146, R147). FL becomes 1, 2 or 4 by the unsigned order of the two values (the spec's decision D4, log 11);
no register changes. Its byte is recognized under the full set (D2, log 3). -/
def Obligations.CmpWritesOneFlag : Prop :=
  (∀ c : Config, c.wf = true → c.declaredSet = .full → ∀ (o1 o2 : Byte) rest,
    decodeBytes c (c.opcodeMap.cmp :: o1 :: o2 :: rest) =
      .ok (.cmp (Fin.ofNat 8 o1.toNat) (Fin.ofNat 8 o2.toNat), rest)) ∧
  ∀ (a b : Reg) (s : State), ∃ t, exec (.cmp a b) s = .next t ∧
    t.fl = (if (s.readReg a).toNat = (s.readReg b).toNat then 0x01
      else if (s.readReg b).toNat < (s.readReg a).toNat then 0x02 else 0x04) ∧
    SameRegsExcept [] s t ∧ SameMemExcept [] s t ∧
    t.pc.toNat = (s.pc.toNat + 3) % 256 ∧ t.run = s.run ∧ t.out = s.out ∧ t.config = s.config

/-- PUSH (R164) where it does not overflow (the condition is the spec's decision D5, log 4). SP drops by one and x[a],
read after that (the spec's decision D13, log 9), is stored there. -/
def Obligations.PushStoresBelowSp : Prop :=
  (∀ c : Config, c.wf = true → ∀ (o1 : Byte) rest,
    decodeBytes c (c.opcodeMap.push :: o1 :: rest) = .ok (.push (Fin.ofNat 8 o1.toNat), rest)) ∧
  ∀ (a : Reg) (s : State), (s.config.stackPolicy = .wrap ∨ s.sp ≠ 0x00) → ∃ t, exec (.push a) s = .next t ∧
    s.pushAddr.toNat = (s.sp.toNat + 255) % 256 ∧ t.sp = s.pushAddr ∧
    t.memRead s.pushAddr = (if a = 7 then s.pushAddr else s.readReg a) ∧
    SameRegsExcept [7] s t ∧ SameMemExcept [s.pushAddr] s t ∧
    t.pc.toNat = (s.pc.toNat + 2) % 256 ∧ t.fl = s.fl ∧ t.run = s.run ∧ t.out = s.out ∧ t.config = s.config

/-- POP (R165) where it does not underflow (the condition is the spec's decision D5, log 4). x[a] becomes the byte at
SP and SP rises by one; POP R7 leaves the popped byte plus one (the spec's decision D13, log 9). No cell changes. -/
def Obligations.PopLoadsTop : Prop :=
  (∀ c : Config, c.wf = true → ∀ (o1 : Byte) rest,
    decodeBytes c (c.opcodeMap.pop :: o1 :: rest) = .ok (.pop (Fin.ofNat 8 o1.toNat), rest)) ∧
  ∀ (a : Reg) (s : State), (s.config.stackPolicy = .wrap ∨ s.sp.toNat < 0xF4) → ∃ t, exec (.pop a) s = .next t ∧
    (a ≠ 7 → t.readReg a = s.memRead s.sp ∧ t.sp.toNat = (s.sp.toNat + 1) % 256) ∧
    (a = 7 → t.sp.toNat = ((s.memRead s.sp).toNat + 1) % 256) ∧
    SameRegsExcept [a, 7] s t ∧ SameMemExcept [] s t ∧
    t.pc.toNat = (s.pc.toNat + 2) % 256 ∧ t.fl = s.fl ∧ t.run = s.run ∧ t.out = s.out ∧ t.config = s.config

/-- CALL (R166) where it does not overflow (the condition is the spec's decision D5, log 4). The address after the
CALL is pushed and pc becomes x[a], read after SP dropped (the spec's decision D13, log 9). -/
def Obligations.CallPushesReturnAddress : Prop :=
  (∀ c : Config, c.wf = true → ∀ (o1 : Byte) rest,
    decodeBytes c (c.opcodeMap.call :: o1 :: rest) = .ok (.call (Fin.ofNat 8 o1.toNat), rest)) ∧
  ∀ (a : Reg) (s : State), (s.config.stackPolicy = .wrap ∨ s.sp ≠ 0x00) → ∃ t, exec (.call a) s = .next t ∧
    s.pushAddr.toNat = (s.sp.toNat + 255) % 256 ∧ t.sp = s.pushAddr ∧
    (t.memRead s.pushAddr).toNat = (s.pc.toNat + 2) % 256 ∧
    t.pc = (if a = 7 then s.pushAddr else s.readReg a) ∧
    SameRegsExcept [7] s t ∧ SameMemExcept [s.pushAddr] s t ∧
    t.fl = s.fl ∧ t.run = s.run ∧ t.out = s.out ∧ t.config = s.config

/-- RET (R167) where it does not underflow (the condition is the spec's decision D5, log 4). pc becomes the byte at
SP, whoever put it there, and SP rises by one. -/
def Obligations.RetPopsPc : Prop :=
  (∀ c : Config, c.wf = true → ∀ rest, decodeBytes c (c.opcodeMap.ret :: rest) = .ok (.ret, rest)) ∧
  ∀ s : State, (s.config.stackPolicy = .wrap ∨ s.sp.toNat < 0xF4) → ∃ t, exec .ret s = .next t ∧
    t.pc = s.memRead s.sp ∧ t.sp.toNat = (s.sp.toNat + 1) % 256 ∧
    SameRegsExcept [7] s t ∧ SameMemExcept [] s t ∧
    t.fl = s.fl ∧ t.run = s.run ∧ t.out = s.out ∧ t.config = s.config

/-- JMP (R181; semantics by the spec's decision D3, log 10). pc becomes x[a] and nothing else changes. Its byte is
recognized under the full set (D2, log 3). -/
def Obligations.JmpJumpsToRegister : Prop :=
  (∀ c : Config, c.wf = true → c.declaredSet = .full → ∀ (o1 : Byte) rest,
    decodeBytes c (c.opcodeMap.jmp :: o1 :: rest) = .ok (.jmp (Fin.ofNat 8 o1.toNat), rest)) ∧
  ∀ (a : Reg) (s : State), ∃ t, exec (.jmp a) s = .next t ∧
    t.pc = s.readReg a ∧ SameRegsExcept [] s t ∧ SameMemExcept [] s t ∧
    t.fl = s.fl ∧ t.run = s.run ∧ t.out = s.out ∧ t.config = s.config

/-- JEQ (R182; semantics by the spec's decision D3, log 10). Taken where bit 0 of FL is 1, else pc passes its two
bytes. Its byte is recognized under the full set (D2, log 3). -/
def Obligations.JeqJumpsIfEqual : Prop :=
  (∀ c : Config, c.wf = true → c.declaredSet = .full → ∀ (o1 : Byte) rest,
    decodeBytes c (c.opcodeMap.jeq :: o1 :: rest) = .ok (.jeq (Fin.ofNat 8 o1.toNat), rest)) ∧
  ∀ (a : Reg) (s : State), ∃ t, exec (.jeq a) s = .next t ∧
    (s.fl.toNat % 2 = 1 → t.pc = s.readReg a) ∧ (s.fl.toNat % 2 = 0 → t.pc.toNat = (s.pc.toNat + 2) % 256) ∧
    SameRegsExcept [] s t ∧ SameMemExcept [] s t ∧
    t.fl = s.fl ∧ t.run = s.run ∧ t.out = s.out ∧ t.config = s.config

/-- JNE (R183; semantics by the spec's decision D3, log 10). Taken where bit 0 of FL is 0, else pc passes its two
bytes. Its byte is recognized under the full set (D2, log 3). -/
def Obligations.JneJumpsIfNotEqual : Prop :=
  (∀ c : Config, c.wf = true → c.declaredSet = .full → ∀ (o1 : Byte) rest,
    decodeBytes c (c.opcodeMap.jne :: o1 :: rest) = .ok (.jne (Fin.ofNat 8 o1.toNat), rest)) ∧
  ∀ (a : Reg) (s : State), ∃ t, exec (.jne a) s = .next t ∧
    (s.fl.toNat % 2 = 0 → t.pc = s.readReg a) ∧ (s.fl.toNat % 2 = 1 → t.pc.toNat = (s.pc.toNat + 2) % 256) ∧
    SameRegsExcept [] s t ∧ SameMemExcept [] s t ∧
    t.fl = s.fl ∧ t.run = s.run ∧ t.out = s.out ∧ t.config = s.config

/-! ## The stack's limits and the stated properties of pairs -/

/-- Stack overflow (R161; the spec's decision D5, log 4): under the fault policy a PUSH or CALL with SP = 0x00 faults,
names its own opcode, and changes nothing but the run state. That a fault is a next state which changes nothing else
is the spec's decision D11 (log 7). -/
def Obligations.PushAndCallOverflowAtZero : Prop :=
  ∀ (a : Reg) (s : State), s.config.stackPolicy = .fault → s.sp = 0x00 →
    exec (.push a) s = .next { s with run := .faulted .stackOverflow s.pc s.config.opcodeMap.push } ∧
    exec (.call a) s = .next { s with run := .faulted .stackOverflow s.pc s.config.opcodeMap.call }

/-- Stack underflow (R162; the spec's decision D5, log 4): under the fault policy a POP or RET with SP at or above
0xF4 faults, names its own opcode, and changes nothing but the run state. That a fault is a next state which changes
nothing else is the spec's decision D11 (log 7). -/
def Obligations.PopAndRetUnderflowFromInit : Prop :=
  ∀ (a : Reg) (s : State), s.config.stackPolicy = .fault → 0xF4 ≤ s.sp.toNat →
    exec (.pop a) s = .next { s with run := .faulted .stackUnderflow s.pc s.config.opcodeMap.pop } ∧
    exec .ret s = .next { s with run := .faulted .stackUnderflow s.pc s.config.opcodeMap.ret }

/-- The wrap policy (R163; the spec's decision D5, log 4): no stack instruction faults, a push at SP = 0x00 writes cell
0xFF and leaves SP = 0xFF, a pop at SP = 0xFF reads cell 0xFF and leaves SP = 0x00, and a pop at SP = 0xF4 reads cell
0xF4 and leaves SP = 0xF5. That PUSH R7 stores the lowered SP, 0xFF, is the spec's decision D13 (log 9). -/
def Obligations.WrapPolicyHasNoStackChecks : Prop :=
  ∀ (a : Reg) (s : State), s.config.stackPolicy = .wrap →
    ∃ p q u v, exec (.push a) s = .next p ∧ exec (.call a) s = .next q ∧ exec (.pop a) s = .next u ∧
      exec .ret s = .next v ∧ p.run = s.run ∧ q.run = s.run ∧ u.run = s.run ∧ v.run = s.run ∧
      (s.sp = 0x00 → p.memRead 0xFF = (if a = 7 then 0xFF else s.readReg a) ∧ p.sp = 0xFF ∧
        (q.memRead 0xFF).toNat = (s.pc.toNat + 2) % 256 ∧ q.sp = 0xFF) ∧
      (s.sp = 0xFF → (a ≠ 7 → u.readReg a = s.memRead 0xFF ∧ u.sp = 0x00) ∧
        v.pc = s.memRead 0xFF ∧ v.sp = 0x00) ∧
      (s.sp = 0xF4 → (a ≠ 7 → u.readReg a = s.memRead 0xF4 ∧ u.sp = 0xF5) ∧
        v.pc = s.memRead 0xF4 ∧ v.sp = 0xF5)

/-- Under the fault policy (D5, log 4) a program that writes R7 only through the stack keeps SP at or below 0xF4 and
moves it by at most one, without wrapping (from R161, R162 and R160). A stack fault leaves SP alone (D11, log 7). -/
def Obligations.StackStaysWithinLimits : Prop :=
  ∀ (i : Instr) (s t : State), s.config.stackPolicy = .fault → s.sp.toNat ≤ 0xF4 →
    (∀ v, i ≠ .ldi 7 v) → (∀ b, i ≠ .add 7 b) → (∀ b, i ≠ .mul 7 b) → i ≠ .pop 7 →
    exec i s = .next t →
    t.sp.toNat ≤ 0xF4 ∧ t.sp.toNat ≤ s.sp.toNat + 1 ∧ s.sp.toNat ≤ t.sp.toNat + 1

/-- A stack step (R160): a push lowers SP by one and leaves the value in the cell SP then names, and the pop's two
steps read that cell and restore SP; no flag, no other register and no other cell changes. -/
def Obligations.PushStepThenPopStep : Prop :=
  ∀ (s : State) (v : Byte),
    (s.decSp.storeTop v).sp.toNat = (s.sp.toNat + 255) % 256 ∧
    (s.decSp.storeTop v).memRead (s.decSp.storeTop v).sp = v ∧
    SameRegsExcept [7] s (s.decSp.storeTop v) ∧ SameMemExcept [s.pushAddr] s (s.decSp.storeTop v) ∧
    (s.decSp.storeTop v).fl = s.fl ∧
    s.loadTop = s.memRead s.sp ∧ s.incSp.sp.toNat = (s.sp.toNat + 1) % 256 ∧
    SameRegsExcept [7] s s.incSp ∧ SameMemExcept [] s s.incSp ∧ s.incSp.fl = s.fl ∧
    (State.reset.decSp.storeTop v).memRead 0xF3 = v

/-- PUSH Rn then POP Rm (R168), where neither faults (the conditions are the spec's decision D5, log 4) and m is not 7:
x[m] becomes the value pushed, and SP is restored. That the value pushed for n = 7 is the lowered SP is the spec's
decision D13 (log 9). -/
def Obligations.PushThenPopMovesRegister : Prop :=
  ∀ (n m : Reg) (s : State), m ≠ 7 → (s.config.stackPolicy = .wrap ∨ (s.sp ≠ 0x00 ∧ s.sp.toNat ≤ 0xF4)) →
    ∃ t u, exec (.push n) s = .next t ∧ exec (.pop m) t = .next u ∧
      u.readReg m = (if n = 7 then s.sp - 1 else s.readReg n) ∧ u.sp = s.sp ∧ u.run = s.run

/-- CALL then a later RET (R169): where SP and the cell it names are as CALL left them and neither faults (the
conditions are the spec's decision D5, log 4), RET goes to the address after the CALL and restores SP. CALL itself
goes to x[n], n not 7. -/
def Obligations.CallThenRetReturns : Prop :=
  ∀ (n : Reg) (s : State), (s.config.stackPolicy = .wrap ∨ s.sp ≠ 0x00) →
    ∃ t, exec (.call n) s = .next t ∧ (n ≠ 7 → t.pc = s.readReg n) ∧
      ∀ u : State, u.sp = t.sp → u.memRead u.sp = t.memRead t.sp →
        (u.config.stackPolicy = .wrap ∨ u.sp.toNat < 0xF4) →
        ∃ v, exec .ret u = .next v ∧ v.pc.toNat = (s.pc.toNat + 2) % 256 ∧ v.sp = s.sp

/-- LDI Rn, v then PRN Rn emits v (R125), from every state and for every register. That the events are kept in State is
the model's choice (log 6). -/
def Obligations.LdiThenPrnEmitsImmediate : Prop :=
  ∀ (n : Reg) (v : Byte) (s : State), ∃ t u, exec (.ldi n v) s = .next t ∧ exec (.prn n) t = .next u ∧
    u.out = s.out ++ [v] ∧ u.pc.toNat = (s.pc.toNat + 5) % 256

/-! ## Encoding -/

/-- The decoder (from R72 and R73): total on every byte, the count is bits 7:6 and sets_pc is bit 4. That the count of
0xC0 to 0xFF is 3, where the source has 0, 1 or 2, is the spec's decision D7 (log 13). -/
def Obligations.DecoderReadsCountAndSetsPc : Prop :=
  ∀ op : Byte, (opShape op).operandCount = op.toNat / 64 ∧ ((opShape op).setsPc = true ↔ op.toNat / 16 % 2 = 1)

/-- Words written out from the default opcode map, which the spec takes from general knowledge (R76, D1, log 2),
decode to the instructions they stand for. That the words of CMP and JEQ decode rests on the default declared set,
Full, the spec's decision D2 (log 3). -/
def Obligations.DefaultWordsDecode : Prop :=
  decodeBytes .default [0b00000001] = .ok (.hlt, []) ∧
  decodeBytes .default [0b10000010, 0b00000011, 0b00101010] = .ok (.ldi 3 0x2A, []) ∧
  decodeBytes .default [0b10100111, 0b00000000, 0b00000010] = .ok (.cmp 0 2, []) ∧
  decodeBytes .default [0b01010000, 0b00000001] = .ok (.call 1, []) ∧
  decodeBytes .default [0b01010101, 0b00000011] = .ok (.jeq 3, [])

/-- Illegal bytes (R80, R81; the default map of R76 is the spec's decision D1, log 2, and the two sets its decision D2,
log 3): 243 bytes are unrecognized under the full set and 247 under the dispatched set, 0x00 among them. -/
def Obligations.UnrecognizedByteCounts : Prop :=
  ((List.range 256).filter fun n => (Config.default.lookup (BitVec.ofNat 8 n)).isNone).length = 243 ∧
  ((List.range 256).filter fun n =>
    (({ Config.default with declaredSet := .dispatched } : Config).lookup (BitVec.ofNat 8 n)).isNone).length = 247 ∧
  Config.default.lookup 0x00 = none

/-- Decode and encode agree: under every parameters whose opcode map keeps R77, every instruction they recognize
decodes from its encoding, with whatever bytes follow left over. The maps are the spec's decision D1 (log 2), the
declared sets its decision D2 (log 3), and that the decoder decides recognition is log 18. -/
def Obligations.DecodeOfEncode : Prop :=
  ∀ (c : Config) (i : Instr) (rest : List Byte), c.wf = true → i.wf c = true →
    decodeBytes c (encode c i ++ rest) = .ok (i, rest)

/-- The other direction (from R74, R78, R79): decoded bytes differ from the encoding of what they decode to in bits
7:3 of register bytes alone. The maps are the spec's decision D1 (log 2), the declared sets its decision D2 (log 3),
and that the decoder decides recognition is log 18. -/
def Obligations.DecodedBytesAreTheEncoding : Prop :=
  ∀ (c : Config) (bs rest : List Byte) (i : Instr), c.wf = true → decodeBytes c bs = .ok (i, rest) →
    i.wf c = true ∧ ∃ taken, bs = taken ++ rest ∧ taken.length = (encode c i).length ∧
      taken.headD 0 = (encode c i).headD 0 ∧
      (∀ k, (taken.getD k 0).toNat % 8 = ((encode c i).getD k 0).toNat % 8) ∧
      (∀ a imm, i = .ldi a imm → taken.getD 2 0 = imm)

/-- Instruction length (R70): what a decode takes is one opcode byte and as many operand bytes as that byte's count
field says, 1 to 3 bytes in all. -/
def Obligations.LengthFromOpcodeByte : Prop :=
  ∀ (c : Config) (op : Byte) (tail rest : List Byte) (i : Instr), c.wf = true →
    decodeBytes c (op :: tail) = .ok (i, rest) →
    ∃ operands, tail = operands ++ rest ∧ operands.length = (opShape op).operandCount ∧
      (opShape op).operandCount ≤ 2

/-- No byte whose count field is 3 is recognized, under any parameters that keep R77 (R73; the spec's decision D7,
log 13). -/
def Obligations.CountThreeIsNeverRecognized : Prop :=
  ∀ (c : Config) (op : Byte) (tail : List Byte), c.wf = true → 0xC0 ≤ op.toNat →
    decodeBytes c (op :: tail) = .error (.unrecognizedOpcode op)

/-- Register bytes (R79): the register named is the byte modulo 8, bits 7:3 are ignored in either register operand, and
no operand byte keeps a recognized opcode from decoding. -/
def Obligations.RegisterByteHighBitsIgnored : Prop :=
  (∀ b : Byte, (regOf b).val = b.toNat % 8) ∧
  (∀ (c : Config) (op o1 o1' : Byte) (tail : List Byte), o1.toNat % 8 = o1'.toNat % 8 →
    (∀ k, c.lookup op = some k → k.operandCount ≠ 0) →
    decodeBytes c (op :: o1 :: tail) = decodeBytes c (op :: o1' :: tail)) ∧
  (∀ (c : Config) (op o1 o2 o2' : Byte) (tail : List Byte), o2.toNat % 8 = o2'.toNat % 8 →
    (c.lookup op = some .add ∨ c.lookup op = some .mul ∨ c.lookup op = some .cmp) →
    decodeBytes c (op :: o1 :: o2 :: tail) = decodeBytes c (op :: o1 :: o2' :: tail)) ∧
  (∀ (c : Config) (op o1 o2 : Byte) (tail : List Byte) (k : Mnemonic), c.lookup op = some k →
    ∃ i rest, decodeBytes c (op :: o1 :: o2 :: tail) = .ok (i, rest) ∧ i.mnemonic = k)

/-! ## Reset, load and status -/

/-- The state after reset under the default parameters (R40): R0 to R6, FL, pc and every cell 0x00, R7 = 0xF4, run =
RUNNING. FL and pc are the spec's decision D8 and its derivation (log 12); the empty output is the model's field (log
6); the parameters stand in State by log 1, with the defaults of the spec's decisions D1 (log 2), D2 (log 3), D5 (log
4) and D14 (log 5). -/
def Obligations.ResetState : Prop :=
  (∀ r : Reg, State.reset.readReg r = if r = 7 then 0xF4 else 0x00) ∧ State.reset.pc = 0x00 ∧
  State.reset.fl = 0x00 ∧ (∀ a, State.reset.memRead a = 0x00) ∧ State.reset.run = .running ∧
  State.reset.out = [] ∧ State.reset.config = .default

/-- Loading an image (R36, R230; the limit is the spec's decision D17, log 16): an image of at most 256 bytes stands
from address 0, every other cell is 0x00, and the rest is as reset leaves it, under any parameters. That pc and FL are
0x00 is the spec's decision D8 and its derivation (log 12), and the empty output is the model's field (log 6). -/
def Obligations.LoadPlacesImage : Prop :=
  ∀ (c : Config) (image : List Byte), image.length ≤ 256 → ∃ s, load c image = .next s ∧
    (∀ a : Addr, s.memRead a = image.getD a.toNat 0x00) ∧
    (∀ r : Reg, s.readReg r = if r = 7 then 0xF4 else 0x00) ∧
    s.pc = 0x00 ∧ s.fl = 0x00 ∧ s.run = .running ∧ s.out = [] ∧ s.config = c

/-- An image longer than 256 bytes is refused by name (the spec's decision D17 on R36, log 16). -/
def Obligations.LongImageIsRefused : Prop :=
  ∀ (c : Config) (image : List Byte), 256 < image.length → load c image = .refused (.imageTooLong image.length)

/-- Exit statuses (R37; the stack fault's is the spec's decision D14, log 5). -/
def Obligations.ExitStatusOfRunState : Prop :=
  ∀ s : State, (s.run = .running → s.exitStatus = none) ∧ (s.run = .halted → s.exitStatus = some 0) ∧
    ∀ fpc fop, (s.run = .faulted .unrecognizedOpcode fpc fop →
        s.exitStatus = some 3 ∧ s.diagnostic = some (fpc, fop)) ∧
      (s.run = .faulted .stackOverflow fpc fop → s.exitStatus = some s.config.stackFaultExitStatus) ∧
      (s.run = .faulted .stackUnderflow fpc fop → s.exitStatus = some s.config.stackFaultExitStatus)

/-- The host's rendering of an event (R35, R124): the decimal digits of the value, no leading zero, then a newline.
That a digit is its ASCII byte is the model's choice (log 17). That the host renders the event is the spec's decision
D10, and that there are no leading zeros its general knowledge (G7, log 17). -/
def Obligations.OutputIsRenderedInDecimal : Prop :=
  ∀ v : Byte, (decimalDigits v).foldl (fun n d => 10 * n + d) 0 = v.toNat ∧ (∀ d ∈ decimalDigits v, d < 10) ∧
    ((decimalDigits v).length = 1 ∨ (decimalDigits v).headD 0 ≠ 0) ∧
    renderOut v = (decimalDigits v).map (fun d => BitVec.ofNat 8 (48 + d)) ++ [10]

/-! ## The cycle -/

/-- A step runs the decoded instruction (R107): while RUNNING, where the fetched bytes decode to an instruction, the
step is that instruction's `exec`, which holds the engine's advance of R104; the step adds nothing around it. That
`exec` holds the advance is the model's choice (log 21). -/
def Obligations.StepRunsDecodedInstruction : Prop :=
  ∀ (s : State) (i : Instr) (rest : List Byte), s.run = .running →
    decodeBytes s.config s.fetchBytes = .ok (i, rest) → step s = exec i s

/-- A step runs the instruction whose encoding stands at pc (R75, R54): its bytes at pc, pc + 1 and pc + 2, each
modulo 256, so also across the top of memory. The bytes' ascending order is R53 with the spec's decision D15; that
`exec` holds the advance is the model's choice (log 21). -/
def Obligations.StepRunsEncodedInstruction : Prop :=
  ∀ (s : State) (i : Instr), s.run = .running → s.config.wf = true → i.wf s.config = true →
    (∀ k, k < (encode s.config i).length → s.memRead (s.pc + BitVec.ofNat 8 k) = (encode s.config i).getD k 0) →
    step s = exec i s

/-- An unrecognized opcode (from R103, R202): the step faults with the pc and the byte, changes nothing but the run
state, emits nothing, exits with status 3 and reports both. That the fault is a next state which keeps all else is the
spec's decision D11 (log 7), and that no step follows its decision D18 (log 7). -/
def Obligations.UnrecognizedOpcodeFaults : Prop :=
  ∀ s : State, s.run = .running →
    (∀ m, s.config.recognizes m = true → s.config.opcodeMap.byteOf m ≠ s.memRead s.pc) →
    ∃ t, step s = .next t ∧ t = { s with run := .faulted .unrecognizedOpcode s.pc (s.memRead s.pc) } ∧
      t.exitStatus = some 3 ∧ t.diagnostic = some (s.pc, s.memRead s.pc) ∧ ∀ u, step t ≠ .next u

/-- No step from a terminal state (R100, R42; the spec's decision D18, log 7): HALTED and FAULTED have no next state, so
a run that is there stays there. -/
def Obligations.TerminalStatesAreFinal : Prop :=
  ∀ s t : State, s.run ≠ .running → ((∀ u, step s ≠ .next u) ∧ (Reaches s t → t = s))

/-- A RUNNING machine always has a next state (R107, R203): nothing is refused and no address, operand or target stops
it, under any parameters (opcode maps that break R77: log 19). A fault is such a next state by the model's choice (the
spec's decision D11, log 7). -/
def Obligations.RunningMachineAlwaysSteps : Prop :=
  ∀ s : State, s.run = .running → ∃ t, step s = .next t

/-- The faults are exactly those of R200 (stack faults: the spec's decisions D5 and D14, logs 4 and 5): each kind is
raised exactly under its condition, records the instruction's pc and opcode byte, and gives its exit status. Which
bytes are recognized depends on the declared set (D2, log 3); that a fault is a next state is the decision D11 (log
7). -/
def Obligations.FaultsAreExactlyTheThree : Prop :=
  ∀ s t : State, s.config.wf = true → step s = .next t →
    ((∃ p o, t.run = .faulted .unrecognizedOpcode p o) ↔
      ∀ m, s.config.recognizes m = true → s.config.opcodeMap.byteOf m ≠ s.memRead s.pc) ∧
    ((∃ p o, t.run = .faulted .stackOverflow p o) ↔ s.config.stackPolicy = .fault ∧ s.sp = 0x00 ∧
      (s.memRead s.pc = s.config.opcodeMap.push ∨ s.memRead s.pc = s.config.opcodeMap.call)) ∧
    ((∃ p o, t.run = .faulted .stackUnderflow p o) ↔ s.config.stackPolicy = .fault ∧ 0xF4 ≤ s.sp.toNat ∧
      (s.memRead s.pc = s.config.opcodeMap.pop ∨ s.memRead s.pc = s.config.opcodeMap.ret)) ∧
    (∀ k p o, t.run = .faulted k p o → p = s.pc ∧ o = s.memRead s.pc ∧
      t.exitStatus = some (if k = .unrecognizedOpcode then 3 else s.config.stackFaultExitStatus))

/-- Fault entry (R201, R106; the spec's decision D11, log 7): a step that faults changes the run state and nothing
else, under any parameters (opcode maps that break R77: log 19). -/
def Obligations.FaultChangesOnlyRunState : Prop :=
  ∀ (s t : State) (k : FaultKind) (p o : Byte), step s = .next t → t.run = .faulted k p o →
    t = { s with run := .faulted k s.pc (s.memRead s.pc) }

/-- The program counter (R26, R104, R105; after HLT by the spec's decision D6, log 8): a step that does not fault
advances pc by the opcode's count field plus one where its bit 4 is clear. Where bit 4 is set pc is a register's
value, the byte at SP, or the address after two bytes; for JMP, JEQ and JNE that is the spec's decision D3 (log 10).
The register is read in the next state, which for CALL R7 is right because the target is read after SP drops, the
spec's decision D13 (log 9). -/
def Obligations.PcFollowsOpcodeFields : Prop :=
  ∀ s t : State, s.config.wf = true → step s = .next t → (∀ k p o, t.run ≠ .faulted k p o) →
    ((opShape (s.memRead s.pc)).setsPc = false →
      t.pc.toNat = (s.pc.toNat + (opShape (s.memRead s.pc)).operandCount + 1) % 256) ∧
    ((opShape (s.memRead s.pc)).setsPc = true →
      (∃ r, t.pc = t.readReg r) ∨ t.pc = s.memRead s.sp ∨ t.pc.toNat = (s.pc.toNat + 2) % 256)

/-- A run ends only by HLT or a fault (R109, R234): a step halts exactly where the opcode is HLT's. -/
def Obligations.OnlyHltHalts : Prop :=
  ∀ s t : State, s.config.wf = true → step s = .next t →
    (t.run = .halted ↔ s.memRead s.pc = s.config.opcodeMap.hlt)

/-- A JMP to its own address loops (R181, R109; the spec's decision D3, log 10; the full set is its decision D2, log
3): every number of steps leaves the machine where it is, so infinite runs exist, and no run from there ever faults.
-/
def Obligations.JumpToSelfRunsForever : Prop :=
  ∀ (s : State) (n : Nat), s.run = .running → s.config.wf = true → s.config.declaredSet = .full →
    s.memRead s.pc = s.config.opcodeMap.jmp → s.readReg (regOf (s.memRead (s.pc + 1))) = s.pc →
    Sys2Proof.core.run n s = .next s ∧ SafeFrom s

/-- Under the dispatched set (R180, R146; the spec's decision D2, log 3) the bytes of CMP, JMP, JEQ and JNE fault as
unrecognized. A fault is a next state by the decision D11 (log 7). -/
def Obligations.DispatchedSetRejectsDeclared : Prop :=
  ∀ s : State, s.run = .running → s.config.wf = true → s.config.declaredSet = .dispatched →
    (s.memRead s.pc = s.config.opcodeMap.cmp ∨ s.memRead s.pc = s.config.opcodeMap.jmp ∨
      s.memRead s.pc = s.config.opcodeMap.jeq ∨ s.memRead s.pc = s.config.opcodeMap.jne) →
    step s = .next { s with run := .faulted .unrecognizedOpcode s.pc (s.memRead s.pc) }

/-- A write is seen by the very next fetch, and an instruction that overwrites its own bytes runs as fetched (R61,
R58): a PUSH that does not overflow (the condition is the spec's decision D5, log 4) stores the register its fetched
operand names wherever SP points, its own bytes included, and where that is the next instruction's opcode byte the next
fetch reads it. That an operand naming R7 stores the lowered SP is the spec's decision D13 (log 9). -/
def Obligations.PushedByteIsFetchedNext : Prop :=
  ∀ s : State, s.run = .running → s.config.wf = true → s.memRead s.pc = s.config.opcodeMap.push →
    (s.config.stackPolicy = .wrap ∨ s.sp ≠ 0x00) →
    ∃ t, step s = .next t ∧ t.pc.toNat = (s.pc.toNat + 2) % 256 ∧
      t.memRead s.pushAddr = (if (s.memRead (s.pc + 1)).toNat % 8 = 7 then s.pushAddr
        else s.readReg (regOf (s.memRead (s.pc + 1)))) ∧
      (s.pushAddr = s.pc + 2 → t.fetchBytes.headD 0 = t.memRead s.pushAddr)

/-! ## Rules about the whole machine -/

/-- FL as it reads (from R28): bits 7:3 are zero in every state, which in states no run reaches is the model's read mask
(log 20), and after CMP bits 0, 1 and 2 say equal, greater and less, the values compared as unsigned integers by the
spec's decision D4 (log 11). -/
def Obligations.FlReadsThreeBits : Prop :=
  (∀ s : State, s.readFl.toNat < 8) ∧
  ∀ (a b : Reg) (s : State), ∃ t, exec (.cmp a b) s = .next t ∧
    (t.readFl.getLsbD 0 = true ↔ (s.readReg a).toNat = (s.readReg b).toNat) ∧
    (t.readFl.getLsbD 1 = true ↔ (s.readReg a).toNat > (s.readReg b).toNat) ∧
    (t.readFl.getLsbD 2 = true ↔ (s.readReg a).toNat < (s.readReg b).toNat)

/-- CMP is the only writer of FL (R29): a step that changes FL runs CMP's opcode under the full set (the spec's
decision D2, log 3) and leaves exactly one of the three bits set, under any parameters (opcode maps that break R77:
log 19). -/
def Obligations.OnlyCmpChangesFl : Prop :=
  ∀ s t : State, step s = .next t → t.fl ≠ s.fl →
    s.memRead s.pc = s.config.opcodeMap.cmp ∧ s.config.declaredSet = .full ∧
      (t.fl = 0x01 ∨ t.fl = 0x02 ∨ t.fl = 0x04)

/-- JEQ and JNE are the only readers of FL and read E alone (R29; that they read bit 0 and JMP reads none is the spec's
decision D3, log 10): any other value of FL, with the same bit 0 where the instruction is JEQ or JNE, makes no
difference but to FL itself, and CMP's result does not depend on FL. -/
def Obligations.OnlyEFlagIsRead : Prop :=
  ∀ (i : Instr) (s : State) (f : Byte),
    (∀ a b, exec (.cmp a b) { s with fl := f } = exec (.cmp a b) s) ∧
    ((∀ a b, i ≠ .cmp a b) → ((∃ a, i = .jeq a ∨ i = .jne a) → f.toNat % 2 = s.fl.toNat % 2) →
      exec i { s with fl := f } = mapNext (fun t => { t with fl := f }) (exec i s))

/-- The accesses of each instruction beyond the fetch (from R52). What the nine that have none do does not depend on
memory and leaves it alone. POP and RET depend on the one cell at SP. PUSH and CALL depend on no cell and write the
one at the decremented SP, unless they fault, which is the spec's decision D5 (log 4). A fetch depends on the opcode's
cell and on those of the operand bytes its count field asks for, two at most; that the count can be 3 and two bytes
are then read is the spec's decision D7 (log 13). -/
def Obligations.MemoryAccessesOfEachInstruction : Prop :=
  (∀ (i : Instr) (s : State) (m : Memory), (∀ a, i ≠ .push a ∧ i ≠ .pop a ∧ i ≠ .call a) → i ≠ .ret →
    exec i { s with mem := m } = mapNext (fun t => { t with mem := m }) (exec i s)) ∧
  (∀ (i : Instr) (s : State) (m : Memory), i = .ret ∨ (∃ a, i = .pop a) → m.read s.sp = s.memRead s.sp →
    exec i { s with mem := m } = mapNext (fun t => { t with mem := m }) (exec i s)) ∧
  (∀ (i : Instr) (s : State) (m : Memory), (∃ a, i = .push a ∨ i = .call a) →
    (s.config.stackPolicy = .wrap ∨ s.sp ≠ 0x00) →
    exec i { s with mem := m } =
      mapNext (fun t => { t with mem := m.write s.pushAddr (t.memRead s.pushAddr) }) (exec i s)) ∧
  (∀ (s : State) (m : Memory), m.read s.pc = s.memRead s.pc →
    (1 ≤ (opShape (s.memRead s.pc)).operandCount → m.read (s.pc + 1) = s.memRead (s.pc + 1)) →
    (2 ≤ (opShape (s.memRead s.pc)).operandCount → m.read (s.pc + 2) = s.memRead (s.pc + 2)) →
    ({ s with mem := m } : State).fetchBytes = s.fetchBytes)

/-- A step changes at most one cell, the one below SP, and only by PUSH or CALL (from R52 and R58), under any
parameters (opcode maps that break R77: log 19). -/
def Obligations.OnlyStackWritesMemory : Prop :=
  ∀ (s t : State) (a : Addr), step s = .next t → t.memRead a ≠ s.memRead a →
    a = s.pushAddr ∧ (s.memRead s.pc = s.config.opcodeMap.push ∨ s.memRead s.pc = s.config.opcodeMap.call)

/-- Output (R35, R107; an event carries the byte by the spec's decision D10; that the events are kept in State is the
model's choice, log 6): a step emits the events of PRN alone, one for each PRN and none else, and nothing the machine
does depends on the events before it. -/
def Obligations.OutputIsEmittedAndNeverRead : Prop :=
  ∀ s t : State, s.config.wf = true → step s = .next t → ∃ events, t.out = s.out ++ events ∧
    (s.memRead s.pc = s.config.opcodeMap.prn →
      events = [s.readReg (regOf (s.memRead (s.pc + 1)))]) ∧
    (s.memRead s.pc ≠ s.config.opcodeMap.prn → events = []) ∧
    ∀ before, step { s with out := before } = .next { t with out := before ++ events }

/-- Every step keeps the machine's invariant (from R20, R28, R29, R51, R200): the parameters keep R77 and are the same,
memory stays canonical (log 14), FL stays one of its four values and is never written under the dispatched set (the
spec's decision D2, log 3), and the run record tells the truth. That HLT stands at pc - 1 of a HALTED machine, so the
final pc, is the spec's decision D6 (log 8); the causes of stack fault records are its decision D5 (log 4), and what a
FAULTED machine keeps is its decision D11 (log 7). -/
def Obligations.StepKeepsInvariant : Prop :=
  ∀ s t : State, s.Inv → step s = .next t → t.Inv ∧ t.config = s.config

/-- The reset state meets the invariant (from R40). Its FL is 0x00 by the spec's decision D8 (log 12), its default map
keeps R77 by the decision D1 (log 2), and memory's canonical form is the model's own (log 14). -/
def Obligations.ResetMeetsInvariant : Prop := State.reset.Inv

/-- Every run from every image (R36, R109; an image that loads has at most 256 bytes by the spec's decision D17, log
16), under any parameters that keep R77: each state reached meets the invariant and keeps the parameters, and while
RUNNING there is a next. The invariant holds at load because FL resets to 0x00, the spec's decision D8 (log 12); that
FL stays 0x00 under the dispatched set rests on that and on the decision D2 (log 3). Its clause on the final pc is the
decision D6 (log 8), its stack fault records are the decision D5 (log 4), the kept state of a FAULTED machine is the
decision D11 (log 7), and memory's canonical form is the model's own (log 14). The step lemma is StepKeepsInvariant.
-/
def Obligations.EveryRunKeepsInvariant : Prop :=
  ∀ (c : Config) (image : List Byte) (s t : State), c.wf = true → load c image = .next s → Reaches s t →
    t.Inv ∧ t.config = c ∧ (t.run = .running → ∃ u, step t = .next u)
end

