-- ==== Sys2Proof/Laws/Decode.lean ====
section
/-! SUPPORT. Laws/Decode.lean: what the lookup and the decoder answer, and what a well-formed opcode map gives. -/

namespace Sys2Proof

/-- Every mnemonic is in the list of all. -/
theorem Mnemonic.mem_all (m : Mnemonic) : m ∈ Mnemonic.all := by cases m <;> decide

/-- What a lookup found: a recognized operation whose byte is the one looked up (R102). -/
theorem Config.lookup_some {c : Config} {op : Byte} {m : Mnemonic} (h : c.lookup op = some m) :
    c.recognizes m = true ∧ c.opcodeMap.byteOf m = op := by
  simpa using List.find?_some h

/-- A lookup finds nothing exactly where no recognized operation has the byte (R80). -/
theorem Config.lookup_none {c : Config} {op : Byte} :
    c.lookup op = none ↔ ∀ m, c.recognizes m = true → c.opcodeMap.byteOf m ≠ op := by
  simp only [Config.lookup, List.find?_eq_none, Bool.and_eq_true, beq_iff_eq, not_and]
  exact ⟨fun h m hm => h m m.mem_all hm, fun h m _ hm => h m hm⟩

/-- R77's three conditions, as propositions. -/
theorem OpcodeMap.wf_iff (m : OpcodeMap) :
    m.wf = true ↔ (∀ k, (opShape (m.byteOf k)).operandCount = k.operandCount) ∧
      (∀ k, (opShape (m.byteOf k)).setsPc = k.setsPc) ∧ (Mnemonic.all.map m.byteOf).Nodup := by
  simp only [OpcodeMap.wf, OpcodeMap.countsAgree, OpcodeMap.setsPcAgree, OpcodeMap.distinct, Bool.and_eq_true,
    List.all_eq_true, beq_iff_eq, decide_eq_true_eq, and_assoc]
  exact and_congr ⟨fun h k => h k k.mem_all, fun h k _ => h k⟩
    (and_congr_left fun _ => ⟨fun h k => h k k.mem_all, fun h k _ => h k⟩)

/-- A well-formed map gives distinct operations distinct bytes (R77). -/
theorem OpcodeMap.byteOf_inj {m : OpcodeMap} (h : m.wf = true) {k l : Mnemonic} (e : m.byteOf k = m.byteOf l) :
    k = l :=
  List.inj_on_of_nodup_map ((OpcodeMap.wf_iff m).mp h).2.2 k.mem_all l.mem_all e

/-- Under a well-formed map, looking a recognized operation's byte up finds that operation. -/
theorem Config.lookup_byteOf {c : Config} (h : c.wf = true) {m : Mnemonic} (hm : c.recognizes m = true) :
    c.lookup (c.opcodeMap.byteOf m) = some m := by
  cases hl : c.lookup (c.opcodeMap.byteOf m) with
  | none => exact absurd rfl (Config.lookup_none.mp hl m hm)
  | some k => rw [OpcodeMap.byteOf_inj h (Config.lookup_some hl).2]

/-- The instruction made for an operation is one of that operation. -/
@[simp] theorem Mnemonic.instr_mnemonic (m : Mnemonic) (o1 o2 : Byte) : (m.instr o1 o2).mnemonic = m := by
  cases m <;> rfl

/-- A register byte names its own register (R79). -/
@[simp] theorem regOf_regByte (r : Reg) : regOf (regByte r) = r := by
  revert r
  decide

/-- An instruction has as many operand bytes as its operation's count. -/
@[simp] theorem Instr.operandBytes_length (i : Instr) : i.operandBytes.length = i.mnemonic.operandCount := by
  cases i <;> rfl

/-- What a decoded instruction is: the lookup of the first byte, its operands from the bytes after it. -/
theorem decodeBytes_ok {c : Config} {bs rest : List Byte} {i : Instr} (h : decodeBytes c bs = .ok (i, rest)) :
    ∃ op tail, bs = op :: tail ∧ c.lookup op = some i.mnemonic ∧ i.mnemonic.operandCount ≤ tail.length ∧
      i = i.mnemonic.instr (tail.getD 0 0) (tail.getD 1 0) ∧ rest = tail.drop i.mnemonic.operandCount := by
  cases bs with
  | nil => cases h
  | cons op tail =>
    refine ⟨op, tail, rfl, ?_⟩
    unfold decodeBytes at h
    cases hl : c.lookup op with
    | none => simp [hl] at h
    | some m =>
      simp only [hl] at h
      split at h
      · cases h
      · rename_i hlen
        simp only [Except.ok.injEq, Prod.mk.injEq] at h
        obtain ⟨rfl, rfl⟩ := h
        simpa using hlen

/-- A first byte that is not recognized is refused by name, whatever follows it (R80). -/
theorem decodeBytes_unrecognized {c : Config} {op : Byte} {tail : List Byte} (h : c.lookup op = none) :
    decodeBytes c (op :: tail) = .error (.unrecognizedOpcode op) := by
  simp [decodeBytes, h]

/-- A dispatched operation is recognized under either set (R76). -/
theorem Config.recognizes_dispatched (c : Config) {m : Mnemonic} (h : m.declaredOnly = false) :
    c.recognizes m = true := by
  unfold Config.recognizes
  split <;> simp [h]

/-- Every operation is recognized under the full set (R76). -/
theorem Config.recognizes_full {c : Config} (h : c.declaredSet = .full) (m : Mnemonic) : c.recognizes m = true := by
  simp [Config.recognizes, h]

/-- Under a well-formed map the byte of a recognized operation and enough bytes after it decode to the instruction made
of them (R74). -/
theorem decodeBytes_byteOf {c : Config} (h : c.wf = true) {m : Mnemonic} (hm : c.recognizes m = true)
    {tail : List Byte} (hlen : m.operandCount ≤ tail.length) :
    decodeBytes c (c.opcodeMap.byteOf m :: tail) =
      .ok (m.instr (tail.getD 0 0) (tail.getD 1 0), tail.drop m.operandCount) := by
  simp [decodeBytes, Config.lookup_byteOf h hm, Nat.not_lt.mpr hlen]

/-- No operation has more than two operand bytes (R70). -/
theorem Mnemonic.operandCount_le_two (m : Mnemonic) : m.operandCount ≤ 2 := by cases m <;> decide

end Sys2Proof
end

