-- ==== Sys2Proof/Laws/State.lean ====
section
/-! SUPPORT. Laws/State.lean: what each update of State leaves in each field, one lemma per field and update, so that
no proof unfolds a record update. -/

namespace Sys2Proof.Machine

variable (s : State)


/-! ### memWrite -/

@[simp] theorem State.memWrite_regs (a : Addr) (v : Byte) : (s.memWrite a v).regs = s.regs := rfl
@[simp] theorem State.memWrite_pc (a : Addr) (v : Byte) : (s.memWrite a v).pc = s.pc := rfl
@[simp] theorem State.memWrite_fl (a : Addr) (v : Byte) : (s.memWrite a v).fl = s.fl := rfl
@[simp] theorem State.memWrite_mem (a : Addr) (v : Byte) : (s.memWrite a v).mem = s.mem.write a v := rfl
@[simp] theorem State.memWrite_run (a : Addr) (v : Byte) : (s.memWrite a v).run = s.run := rfl
@[simp] theorem State.memWrite_out (a : Addr) (v : Byte) : (s.memWrite a v).out = s.out := rfl
@[simp] theorem State.memWrite_config (a : Addr) (v : Byte) : (s.memWrite a v).config = s.config := rfl

/-! ### writeReg -/

@[simp] theorem State.writeReg_regs (r : Reg) (v : Byte) : (s.writeReg r v).regs = s.regs.set r v := rfl
@[simp] theorem State.writeReg_pc (r : Reg) (v : Byte) : (s.writeReg r v).pc = s.pc := rfl
@[simp] theorem State.writeReg_fl (r : Reg) (v : Byte) : (s.writeReg r v).fl = s.fl := rfl
@[simp] theorem State.writeReg_mem (r : Reg) (v : Byte) : (s.writeReg r v).mem = s.mem := rfl
@[simp] theorem State.writeReg_run (r : Reg) (v : Byte) : (s.writeReg r v).run = s.run := rfl
@[simp] theorem State.writeReg_out (r : Reg) (v : Byte) : (s.writeReg r v).out = s.out := rfl
@[simp] theorem State.writeReg_config (r : Reg) (v : Byte) : (s.writeReg r v).config = s.config := rfl

/-! ### jump -/

@[simp] theorem State.jump_regs (target : Addr) : (s.jump target).regs = s.regs := rfl
@[simp] theorem State.jump_pc (target : Addr) : (s.jump target).pc = target := rfl
@[simp] theorem State.jump_fl (target : Addr) : (s.jump target).fl = s.fl := rfl
@[simp] theorem State.jump_mem (target : Addr) : (s.jump target).mem = s.mem := rfl
@[simp] theorem State.jump_run (target : Addr) : (s.jump target).run = s.run := rfl
@[simp] theorem State.jump_out (target : Addr) : (s.jump target).out = s.out := rfl
@[simp] theorem State.jump_config (target : Addr) : (s.jump target).config = s.config := rfl

/-! ### emit -/

@[simp] theorem State.emit_regs (v : Byte) : (s.emit v).regs = s.regs := rfl
@[simp] theorem State.emit_pc (v : Byte) : (s.emit v).pc = s.pc := rfl
@[simp] theorem State.emit_fl (v : Byte) : (s.emit v).fl = s.fl := rfl
@[simp] theorem State.emit_mem (v : Byte) : (s.emit v).mem = s.mem := rfl
@[simp] theorem State.emit_run (v : Byte) : (s.emit v).run = s.run := rfl
@[simp] theorem State.emit_out (v : Byte) : (s.emit v).out = s.out ++ [v] := rfl
@[simp] theorem State.emit_config (v : Byte) : (s.emit v).config = s.config := rfl

/-! ### halt -/

@[simp] theorem State.halt_regs : (s.halt).regs = s.regs := rfl
@[simp] theorem State.halt_pc : (s.halt).pc = s.pc := rfl
@[simp] theorem State.halt_fl : (s.halt).fl = s.fl := rfl
@[simp] theorem State.halt_mem : (s.halt).mem = s.mem := rfl
@[simp] theorem State.halt_run : (s.halt).run = .halted := rfl
@[simp] theorem State.halt_out : (s.halt).out = s.out := rfl
@[simp] theorem State.halt_config : (s.halt).config = s.config := rfl

/-! ### raiseFault -/

@[simp] theorem State.raiseFault_regs (kind : FaultKind) (op : Byte) : (s.raiseFault kind op).regs = s.regs := rfl
@[simp] theorem State.raiseFault_pc (kind : FaultKind) (op : Byte) : (s.raiseFault kind op).pc = s.pc := rfl
@[simp] theorem State.raiseFault_fl (kind : FaultKind) (op : Byte) : (s.raiseFault kind op).fl = s.fl := rfl
@[simp] theorem State.raiseFault_mem (kind : FaultKind) (op : Byte) : (s.raiseFault kind op).mem = s.mem := rfl
@[simp] theorem State.raiseFault_run (kind : FaultKind) (op : Byte) : (s.raiseFault kind op).run = .faulted kind s.pc op := rfl
@[simp] theorem State.raiseFault_out (kind : FaultKind) (op : Byte) : (s.raiseFault kind op).out = s.out := rfl
@[simp] theorem State.raiseFault_config (kind : FaultKind) (op : Byte) : (s.raiseFault kind op).config = s.config := rfl

/-! ### writeFl -/

@[simp] theorem State.writeFl_regs (v : Byte) : (s.writeFl v).regs = s.regs := rfl
@[simp] theorem State.writeFl_pc (v : Byte) : (s.writeFl v).pc = s.pc := rfl
@[simp] theorem State.writeFl_fl (v : Byte) : (s.writeFl v).fl = v := rfl
@[simp] theorem State.writeFl_mem (v : Byte) : (s.writeFl v).mem = s.mem := rfl
@[simp] theorem State.writeFl_run (v : Byte) : (s.writeFl v).run = s.run := rfl
@[simp] theorem State.writeFl_out (v : Byte) : (s.writeFl v).out = s.out := rfl
@[simp] theorem State.writeFl_config (v : Byte) : (s.writeFl v).config = s.config := rfl

end Sys2Proof.Machine
end

