-- ==== Sys2Proof/Laws/Memory.lean ====
section
/-! SUPPORT. Laws/Memory.lean: reading after writing (R51), and every memory operation keeps the canonical form. -/

namespace Sys2Proof.Machine

/-- An address is its number. -/
theorem addr_eq_of_toNat {a b : Addr} (h : a.toNat = b.toNat) : a = b := BitVec.eq_of_toNat_eq h

/-- Looking a number up after inserting a cell under a number the list does not hold. -/
theorem Memory.find_insert (k : Nat) (v : Byte) (n : Nat) (m : Memory) (hk : ∀ x ∈ m, x.1 ≠ k) :
    (Memory.insert k v m).find? (fun x => x.1 == n) =
      if n = k then some (k, v) else m.find? (fun x => x.1 == n) := by
  induction m with
  | nil =>
    by_cases h : n = k
    · simp [Memory.insert, h]
    · have hkn : ¬ k = n := fun e => h e.symm
      simp [Memory.insert, h, hkn]
  | cons x rest ih =>
    have hx : x.1 ≠ k := hk x (by simp)
    have ih' := ih fun y hy => hk y (by simp [hy])
    unfold Memory.insert
    split
    · by_cases h : n = k
      · simp [h]
      · have : ¬ k = n := fun e => h e.symm
        simp [h, this, List.find?_cons]
    · by_cases h : n = k
      · subst h
        simp [hx, ih']
      · simp only [List.find?_cons, ih', h, if_false]

/-- Looking a number up in the cells of other numbers. -/
theorem Memory.find_others (k n : Nat) (m : Memory) :
    (m.filter fun x => x.1 != k).find? (fun x => x.1 == n) =
      if n = k then none else m.find? (fun x => x.1 == n) := by
  induction m with
  | nil => simp
  | cons x rest ih =>
    by_cases hx : x.1 = k
    · have hf : (x :: rest).filter (fun x => x.1 != k) = rest.filter fun x => x.1 != k := by simp [hx]
      rw [hf, ih]
      by_cases hn : n = k
      · simp [hn]
      · have hxn : (x.1 == n) = false := by simpa [hx] using fun e : k = n => hn e.symm
        simp only [List.find?_cons, hxn]
    · have hf : (x :: rest).filter (fun x => x.1 != k) = x :: rest.filter fun x => x.1 != k := by simp [hx]
      rw [hf, List.find?_cons, List.find?_cons, ih]
      by_cases hn : n = k
      · have hxk : (x.1 == k) = false := by simpa using hx
        simp only [hn, hxk, if_true]
      · simp only [hn, if_false]

/-- Read after write (R51): the cell written gives the value, and every other cell is as before. -/
theorem Memory.read_write (m : Memory) (a b : Addr) (v : Byte) :
    (m.write a v).read b = if b = a then v else m.read b := by
  have key : b.toNat = a.toNat ↔ b = a := ⟨addr_eq_of_toNat, fun h => by rw [h]⟩
  unfold Memory.write
  by_cases hv : v = Memory.unlisted
  · simp only [hv, if_true, Memory.read, Memory.find_others, key]
    by_cases h : b = a <;> simp [h]
  · have hne : ∀ x ∈ m.filter (fun x => x.1 != a.toNat), x.1 ≠ a.toNat := by simp
    simp only [hv, if_false, Memory.read, Memory.find_insert _ _ _ _ hne, Memory.find_others, key]
    by_cases h : b = a <;> simp [h]

theorem Memory.read_write_same (m : Memory) (a : Addr) (v : Byte) : (m.write a v).read a = v := by
  simp [Memory.read_write]

theorem Memory.read_write_other (m : Memory) {a b : Addr} (v : Byte) (h : b ≠ a) :
    (m.write a v).read b = m.read b := by
  simp [Memory.read_write, h]

/-- What the canonical form says, as propositions. -/
theorem Memory.wf_iff (m : Memory) :
    m.wf = true ↔ m.Pairwise (fun x y => x.1 < y.1) ∧ ∀ x ∈ m, x.1 < 256 ∧ x.2 ≠ Memory.unlisted := by
  unfold Memory.wf memSize
  simp only [Bool.and_eq_true, List.all_eq_true, decide_eq_true_eq, bne_iff_ne]

/-- The cells of an insertion are the new cell and the old ones. -/
theorem Memory.mem_insert (k : Nat) (v : Byte) (m : Memory) (x : Host.Cell) :
    x ∈ Memory.insert k v m ↔ x = (k, v) ∨ x ∈ m := by
  induction m with
  | nil => simp [Memory.insert]
  | cons y rest ih =>
    unfold Memory.insert
    split
    · simp
    · simp only [List.mem_cons, ih]
      tauto

/-- Inserting under a number the list does not hold keeps the addresses strictly rising. -/
theorem Memory.pairwise_insert (k : Nat) (v : Byte) (m : Memory) (hm : m.Pairwise fun x y => x.1 < y.1)
    (hk : ∀ x ∈ m, x.1 ≠ k) : (Memory.insert k v m).Pairwise fun x y => x.1 < y.1 := by
  induction m with
  | nil => simp [Memory.insert]
  | cons x rest ih =>
    obtain ⟨hx, hrest⟩ := List.pairwise_cons.mp hm
    have hxk : x.1 ≠ k := hk x (by simp)
    unfold Memory.insert
    split
    · rename_i hlt
      refine List.pairwise_cons.mpr ⟨fun y hy => ?_, hm⟩
      rcases List.mem_cons.mp hy with rfl | hy
      · exact hlt
      · exact lt_trans hlt (hx y hy)
    · refine List.pairwise_cons.mpr ⟨fun y hy => ?_, ih hrest fun y hy => hk y (by simp [hy])⟩
      rcases (Memory.mem_insert k v rest y).mp hy with rfl | hy
      · show x.1 < k
        omega
      · exact hx y hy

/-- A write keeps the canonical form. -/
theorem Memory.wf_write (m : Memory) (a : Addr) (v : Byte) (hm : m.wf = true) : (m.write a v).wf = true := by
  obtain ⟨hp, hc⟩ := (Memory.wf_iff m).mp hm
  have hp' := hp.filter (fun x => x.1 != a.toNat)
  have hc' : ∀ x ∈ m.filter (fun x => x.1 != a.toNat), x.1 < 256 ∧ x.2 ≠ Memory.unlisted :=
    fun x hx => hc x (List.mem_filter.mp hx).1
  refine (Memory.wf_iff _).mpr ?_
  unfold Memory.write
  by_cases hv : v = Memory.unlisted
  · simp only [hv, if_true]
    exact ⟨hp', hc'⟩
  · simp only [hv, if_false]
    refine ⟨Memory.pairwise_insert _ _ _ hp' (by simp), fun x hx => ?_⟩
    rcases (Memory.mem_insert _ _ _ x).mp hx with rfl | hx
    · exact ⟨a.isLt, hv⟩
    · exact hc' x hx

/-- A write of a whole state reads back through the state's own read. -/
@[simp] theorem State.memRead_memWrite (s : State) (a b : Addr) (v : Byte) :
    (s.memWrite a v).memRead b = if b = a then v else s.memRead b := Memory.read_write s.mem a b v

/-- States with the same memory read the same. -/
theorem State.memRead_congr {s t : State} (h : t.mem = s.mem) (a : Addr) : t.memRead a = s.memRead a := by
  simp only [State.memRead, h]

end Sys2Proof.Machine
end

