-- ==== Sys2Proof/Laws/Ops.lean ====
section
/-! SUPPORT. Laws/Ops.lean: registers read after a write, which reads an update leaves alone, and one lemma for each
shared operation that says what it does. -/

namespace Sys2Proof.Machine

variable (s : State)

/-! ### Registers -/

/-- A register read after a write (R21, R24): the register written gives the value, every other is as before. -/
@[simp] theorem State.readReg_writeReg (r q : Reg) (v : Byte) :
    (s.writeReg r v).readReg q = if q = r then v else s.readReg q := by
  simp only [State.readReg, State.writeReg, Fin.getElem_fin, Vector.getElem_set, Fin.ext_iff, eq_comm]

/-- SP after a register write (R22). -/
@[simp] theorem State.sp_writeReg (r : Reg) (v : Byte) :
    (s.writeReg r v).sp = if spIndex = r then v else s.sp := s.readReg_writeReg r spIndex v

/-- Every register is some value at the state's own read, so equal reads make equal register files. -/
theorem State.regs_ext {s t : State} (h : ∀ r, t.readReg r = s.readReg r) : t.regs = s.regs := by
  apply Vector.ext
  intro i hi
  exact h ⟨i, hi⟩

/-! ### Reads that an update leaves alone -/

@[simp] theorem State.memRead_writeReg (r : Reg) (v : Byte) (a : Addr) :
    (s.writeReg r v).memRead a = s.memRead a := rfl
@[simp] theorem State.memRead_jump (p : Addr) (a : Addr) : (s.jump p).memRead a = s.memRead a := rfl
@[simp] theorem State.memRead_emit (v : Byte) (a : Addr) : (s.emit v).memRead a = s.memRead a := rfl
@[simp] theorem State.memRead_halt (a : Addr) : s.halt.memRead a = s.memRead a := rfl
@[simp] theorem State.memRead_raiseFault (k : FaultKind) (op : Byte) (a : Addr) :
    (s.raiseFault k op).memRead a = s.memRead a := rfl
@[simp] theorem State.memRead_writeFl (v : Byte) (a : Addr) : (s.writeFl v).memRead a = s.memRead a := rfl

@[simp] theorem State.readReg_memWrite (a : Addr) (v : Byte) (r : Reg) :
    (s.memWrite a v).readReg r = s.readReg r := rfl
@[simp] theorem State.readReg_jump (p : Addr) (r : Reg) : (s.jump p).readReg r = s.readReg r := rfl
@[simp] theorem State.readReg_emit (v : Byte) (r : Reg) : (s.emit v).readReg r = s.readReg r := rfl
@[simp] theorem State.readReg_halt (r : Reg) : s.halt.readReg r = s.readReg r := rfl
@[simp] theorem State.readReg_raiseFault (k : FaultKind) (op : Byte) (r : Reg) :
    (s.raiseFault k op).readReg r = s.readReg r := rfl
@[simp] theorem State.readReg_writeFl (v : Byte) (r : Reg) : (s.writeFl v).readReg r = s.readReg r := rfl

@[simp] theorem State.sp_memWrite (a : Addr) (v : Byte) : (s.memWrite a v).sp = s.sp := rfl
@[simp] theorem State.sp_jump (p : Addr) : (s.jump p).sp = s.sp := rfl
@[simp] theorem State.sp_emit (v : Byte) : (s.emit v).sp = s.sp := rfl
@[simp] theorem State.sp_halt : s.halt.sp = s.sp := rfl
@[simp] theorem State.sp_raiseFault (k : FaultKind) (op : Byte) : (s.raiseFault k op).sp = s.sp := rfl
@[simp] theorem State.sp_writeFl (v : Byte) : (s.writeFl v).sp = s.sp := rfl

/-! ### One lemma per shared operation -/

/-- The engine's advance (R104) is a jump to the address after the operation's bytes. -/
theorem State.advance_eq (m : Mnemonic) : s.advance m = s.jump (s.nextPc m) := rfl

/-- The address after an operation's bytes, as a number (R104). -/
theorem State.nextPc_toNat (m : Mnemonic) : (s.nextPc m).toNat = (s.pc.toNat + m.operandCount + 1) % 256 := by
  cases m <;> simp [State.nextPc, Mnemonic.operandCount, BitVec.toNat_add]

/-- Lowering SP (R160) is one register write. -/
theorem State.decSp_eq : s.decSp = s.writeReg spIndex (s.sp - 1) := rfl

/-- SP after lowering it (R160). -/
@[simp] theorem State.sp_decSp : s.decSp.sp = s.sp - 1 := by simp [State.decSp_eq]

/-- Raising SP (R160) is one register write. -/
theorem State.incSp_eq : s.incSp = s.writeReg spIndex (s.sp + 1) := rfl

/-- SP after raising it (R160). -/
@[simp] theorem State.sp_incSp : s.incSp.sp = s.sp + 1 := by simp [State.incSp_eq]

/-- Storing at SP (R160) is one memory write. -/
theorem State.storeTop_eq (v : Byte) : s.storeTop v = s.memWrite s.sp v := rfl

/-- Reading at SP (R160) is one memory read. -/
theorem State.loadTop_eq : s.loadTop = s.memRead s.sp := rfl

/-- Fault entry (R201) changes the run state and nothing else. -/
theorem State.raiseFault_eq (k : FaultKind) (op : Byte) :
    s.raiseFault k op = { s with run := .faulted k s.pc op } := rfl

/-- When a push overflows (R161). -/
theorem State.pushOverflows_iff :
    s.pushOverflows = true ↔ s.config.stackPolicy = .fault ∧ s.sp = 0x00 := by
  simp [State.pushOverflows]

/-- When a pop underflows (R162). -/
theorem State.popUnderflows_iff :
    s.popUnderflows = true ↔ s.config.stackPolicy = .fault ∧ 0xF4 ≤ s.sp.toNat := by
  simp [State.popUnderflows, spInit]

/-- Storing a byte sequence writes memory only. -/
theorem State.storeBytes_eq (bs : List Byte) (a : Addr) :
    ∃ m, s.storeBytes a bs = { s with mem := m } := by
  induction bs generalizing s a with
  | nil => exact ⟨s.mem, rfl⟩
  | cons b rest ih =>
    obtain ⟨m, hm⟩ := ih (s.memWrite a b) (a + 1)
    exact ⟨m, by rw [State.storeBytes, hm]; rfl⟩

/-- A cell read after storing a byte sequence that does not pass the top of memory: a byte of the sequence where its
address lies in it, the old cell elsewhere (R36, R51). -/
theorem State.memRead_storeBytes (bs : List Byte) (a b : Addr) (h : a.toNat + bs.length ≤ 256) :
    (s.storeBytes a bs).memRead b =
      if a.toNat ≤ b.toNat ∧ b.toNat < a.toNat + bs.length then bs.getD (b.toNat - a.toNat) 0 else s.memRead b := by
  induction bs generalizing s a with
  | nil => simp [State.storeBytes]
  | cons x rest ih =>
    simp only [List.length_cons] at h ⊢
    have hx : b = a ↔ b.toNat = a.toNat := BitVec.toNat_inj.symm
    rw [State.storeBytes]
    cases rest with
    | nil =>
      simp only [State.storeBytes, State.memRead_memWrite, hx, List.length_nil]
      by_cases e : b.toNat = a.toNat
      · simp [e]
      · rw [if_neg e, if_neg (by omega)]
    | cons y rest =>
      simp only [List.length_cons] at h ih ⊢
      have ha : (a + 1).toNat = a.toNat + 1 := by
        rw [BitVec.toNat_add, show (1 : Addr).toNat = 1 from rfl]
        omega
      rw [ih _ _ (by omega), ha, State.memRead_memWrite]
      by_cases e : b.toNat = a.toNat
      · simp [hx, e]
      · rw [if_neg (mt hx.mp e)]
        by_cases hin : a.toNat + 1 ≤ b.toNat ∧ b.toNat < a.toNat + 1 + (rest.length + 1)
        · rw [if_pos hin, if_pos (by omega), show b.toNat - a.toNat = (b.toNat - (a.toNat + 1)) + 1 by omega,
            List.getD_cons_succ]
        · rw [if_neg hin, if_neg (by omega)]

/-- Storing a byte sequence keeps the canonical form. -/
theorem State.storeBytes_wf (bs : List Byte) (a : Addr) (h : s.mem.wf = true) :
    (s.storeBytes a bs).mem.wf = true := by
  induction bs generalizing s a with
  | nil => exact h
  | cons b rest ih => exact ih _ _ (Memory.wf_write s.mem a b h)

end Sys2Proof.Machine
end

