-- ==== Sys2Proof/Laws/Flags.lean ====
section
/-! SUPPORT. Laws/Flags.lean: what FL reads and what CMP's comparison can answer. -/

namespace Sys2Proof.Machine

/-- E is bit 0 of FL as stored (R28). -/
theorem State.flagE_eq (s : State) : s.flagE = s.fl.getLsbD 0 := by
  simp [State.flagE, State.readFl]

/-- The three answers of the comparison, each with its order (R146, R147). -/
theorem compareFlags_cases (x y : Byte) :
    (x.toNat = y.toNat ∧ compareFlags x y = 0x01) ∨ (y.toNat < x.toNat ∧ compareFlags x y = 0x02) ∨
      (x.toNat < y.toNat ∧ compareFlags x y = 0x04) := by
  unfold compareFlags flEqual flGreater flLess
  by_cases h : x = y
  · exact .inl ⟨by rw [h], by simp [h]⟩
  · have hne : x.toNat ≠ y.toNat := fun e => h (BitVec.eq_of_toNat_eq e)
    by_cases hlt : y.toNat < x.toNat
    · exact .inr (.inl ⟨hlt, by simp [h, hlt]⟩)
    · exact .inr (.inr ⟨by omega, by simp [h, hlt]⟩)

end Sys2Proof.Machine
end

