-- ==== Sys2Proof/Laws/Exec.lean ====
section
/-! SUPPORT. Laws/Exec.lean: the stack instructions' two cases as equations, and, for any instruction, the cases of
what its run state, memory and FL can become. -/

namespace Sys2Proof.Machine

variable {s t : State}

/-- A push that does not overflow (R161). -/
theorem State.pushOverflows_false (h : s.config.stackPolicy = .wrap ∨ s.sp ≠ 0x00) : s.pushOverflows = false := by
  rw [← Bool.not_eq_true, s.pushOverflows_iff]
  rintro ⟨hp, hsp⟩
  rcases h with h | h
  · rw [h] at hp
    cases hp
  · exact h hsp

/-- A pop that does not underflow (R162). -/
theorem State.popUnderflows_false (h : s.config.stackPolicy = .wrap ∨ s.sp.toNat < 0xF4) :
    s.popUnderflows = false := by
  rw [← Bool.not_eq_true, s.popUnderflows_iff]
  rintro ⟨hp, hsp⟩
  rcases h with h | h
  · rw [h] at hp
    cases hp
  · omega

/-! ### The stack instructions, case by case -/

theorem exec_push_stores (a : Reg) (h : s.pushOverflows = false) :
    exec (.push a) s = .next ((s.decSp.storeTop (s.decSp.readReg a)).advance .push) := by
  simp [exec, execPush, h]

theorem exec_push_faults (a : Reg) (h : s.pushOverflows = true) :
    exec (.push a) s = .next (s.raiseFault .stackOverflow (s.opcodeOf .push)) := by
  simp [exec, execPush, h]

theorem exec_call_calls (a : Reg) (h : s.pushOverflows = false) :
    exec (.call a) s = .next ((s.decSp.storeTop (s.decSp.nextPc .call)).jump (s.decSp.readReg a)) := by
  simp [exec, execCall, h, State.storeTop_eq]

theorem exec_call_faults (a : Reg) (h : s.pushOverflows = true) :
    exec (.call a) s = .next (s.raiseFault .stackOverflow (s.opcodeOf .call)) := by
  simp [exec, execCall, h]

theorem exec_pop_loads (a : Reg) (h : s.popUnderflows = false) :
    exec (.pop a) s = .next ((s.writeReg a s.loadTop).incSp.advance .pop) := by
  simp [exec, execPop, h]

theorem exec_pop_faults (a : Reg) (h : s.popUnderflows = true) :
    exec (.pop a) s = .next (s.raiseFault .stackUnderflow (s.opcodeOf .pop)) := by
  simp [exec, execPop, h]

theorem exec_ret_returns (h : s.popUnderflows = false) : exec .ret s = .next (s.jump s.loadTop).incSp := by
  simp [exec, execRet, h]

theorem exec_ret_faults (h : s.popUnderflows = true) :
    exec .ret s = .next (s.raiseFault .stackUnderflow (s.opcodeOf .ret)) := by
  simp [exec, execRet, h]

/-! ### Any instruction -/

/-- What an instruction does to the run state: keeps it, halts, or takes its stack fault. -/
theorem exec_run_cases {i : Instr} (h : exec i s = .next t) :
    (t.run = s.run ∧ i ≠ .hlt) ∨ (i = .hlt ∧ t.run = .halted) ∨
      (t = s.raiseFault .stackOverflow (s.opcodeOf i.mnemonic) ∧ s.pushOverflows = true ∧
        (i.mnemonic = .push ∨ i.mnemonic = .call)) ∨
      (t = s.raiseFault .stackUnderflow (s.opcodeOf i.mnemonic) ∧ s.popUnderflows = true ∧
        (i.mnemonic = .pop ∨ i.mnemonic = .ret)) := by
  cases i with
  | push a =>
    cases hb : s.pushOverflows with
    | true => rw [exec_push_faults a hb] at h; cases h; exact .inr (.inr (.inl ⟨rfl, rfl, .inl rfl⟩))
    | false => rw [exec_push_stores a hb] at h; cases h; exact .inl ⟨rfl, by simp⟩
  | call a =>
    cases hb : s.pushOverflows with
    | true => rw [exec_call_faults a hb] at h; cases h; exact .inr (.inr (.inl ⟨rfl, rfl, .inr rfl⟩))
    | false => rw [exec_call_calls a hb] at h; cases h; exact .inl ⟨rfl, by simp⟩
  | pop a =>
    cases hb : s.popUnderflows with
    | true => rw [exec_pop_faults a hb] at h; cases h; exact .inr (.inr (.inr ⟨rfl, rfl, .inl rfl⟩))
    | false => rw [exec_pop_loads a hb] at h; cases h; exact .inl ⟨rfl, by simp⟩
  | ret =>
    cases hb : s.popUnderflows with
    | true => rw [exec_ret_faults hb] at h; cases h; exact .inr (.inr (.inr ⟨rfl, rfl, .inr rfl⟩))
    | false => rw [exec_ret_returns hb] at h; cases h; exact .inl ⟨rfl, by simp⟩
  | hlt => cases h; exact .inr (.inl ⟨rfl, rfl⟩)
  | _ => cases h; exact .inl ⟨rfl, by simp⟩

/-- What an instruction does to memory: nothing, or PUSH's or CALL's one write below SP. -/
theorem exec_mem_cases {i : Instr} (h : exec i s = .next t) :
    t.mem = s.mem ∨
      ((i.mnemonic = .push ∨ i.mnemonic = .call) ∧ ∃ v, t.mem = s.mem.write s.pushAddr v) := by
  have hsp : s.decSp.sp = s.pushAddr := s.sp_decSp
  cases i with
  | push a =>
    cases hb : s.pushOverflows with
    | true => rw [exec_push_faults a hb] at h; cases h; exact .inl rfl
    | false => rw [exec_push_stores a hb] at h; cases h; exact .inr ⟨.inl rfl, _, by rw [← hsp]; rfl⟩
  | call a =>
    cases hb : s.pushOverflows with
    | true => rw [exec_call_faults a hb] at h; cases h; exact .inl rfl
    | false => rw [exec_call_calls a hb] at h; cases h; exact .inr ⟨.inr rfl, _, by rw [← hsp]; rfl⟩
  | pop a =>
    cases hb : s.popUnderflows with
    | true => rw [exec_pop_faults a hb] at h; cases h; exact .inl rfl
    | false => rw [exec_pop_loads a hb] at h; cases h; exact .inl rfl
  | ret =>
    cases hb : s.popUnderflows with
    | true => rw [exec_ret_faults hb] at h; cases h; exact .inl rfl
    | false => rw [exec_ret_returns hb] at h; cases h; exact .inl rfl
  | _ => cases h; exact .inl rfl

/-- What an instruction does to FL: nothing, or CMP's one flag. -/
theorem exec_fl_cases {i : Instr} (h : exec i s = .next t) :
    t.fl = s.fl ∨ ∃ a b, i = .cmp a b ∧ (t.fl = 0x01 ∨ t.fl = 0x02 ∨ t.fl = 0x04) := by
  cases i with
  | cmp a b =>
    cases h
    refine .inr ⟨a, b, rfl, ?_⟩
    rcases compareFlags_cases (s.readReg a) (s.readReg b) with ⟨-, e⟩ | ⟨-, e⟩ | ⟨-, e⟩
    · exact .inl e
    · exact .inr (.inl e)
    · exact .inr (.inr e)
  | push a =>
    cases hb : s.pushOverflows with
    | true => rw [exec_push_faults a hb] at h; cases h; exact .inl rfl
    | false => rw [exec_push_stores a hb] at h; cases h; exact .inl rfl
  | call a =>
    cases hb : s.pushOverflows with
    | true => rw [exec_call_faults a hb] at h; cases h; exact .inl rfl
    | false => rw [exec_call_calls a hb] at h; cases h; exact .inl rfl
  | pop a =>
    cases hb : s.popUnderflows with
    | true => rw [exec_pop_faults a hb] at h; cases h; exact .inl rfl
    | false => rw [exec_pop_loads a hb] at h; cases h; exact .inl rfl
  | ret =>
    cases hb : s.popUnderflows with
    | true => rw [exec_ret_faults hb] at h; cases h; exact .inl rfl
    | false => rw [exec_ret_returns hb] at h; cases h; exact .inl rfl
  | _ => cases h; exact .inl rfl

end Sys2Proof.Machine
end

