-- ==== Sys2Proof/Laws/PerInstr.lean ====
section
/-! SUPPORT. Laws/PerInstr.lean: the family EncodingShape: under parameters with a well-formed opcode map, the encoding
of an instruction has one byte more than its opcode's count field says, three at most, and its opcode's bit 4 is set
exactly where its handler assigns pc (R70, R72, R77). -/

namespace Sys2Proof.Laws.EncodingShape

/-- The shape of an instruction's encoding. -/
def Statement (i : Instr) : Prop :=
  ∀ c : Config, c.wf = true →
    (encode c i).length = (opShape ((encode c i).headD 0)).operandCount + 1 ∧ (encode c i).length ≤ 3 ∧
      (opShape ((encode c i).headD 0)).setsPc = i.mnemonic.setsPc

/-- The shape of any instruction's encoding, from R77's conditions and the number of its operand bytes. -/
theorem of_operandCount (i : Instr) (h : i.mnemonic.operandCount ≤ 2) : Statement i := by
  intro c hc
  obtain ⟨hcount, hsets, -⟩ := (OpcodeMap.wf_iff c.opcodeMap).mp hc
  simp only [encode, List.headD_cons, List.length_cons, Instr.operandBytes_length, hcount, hsets]
  exact ⟨trivial, by omega, trivial⟩

theorem hlt : Statement .hlt := of_operandCount _ (Nat.zero_le 2)
theorem ldi (a : Reg) (imm : Byte) : Statement (.ldi a imm) := of_operandCount _ (Nat.le_refl 2)
theorem prn (a : Reg) : Statement (.prn a) := of_operandCount _ (Nat.le_succ 1)
theorem add (a b : Reg) : Statement (.add a b) := of_operandCount _ (Nat.le_refl 2)
theorem mul (a b : Reg) : Statement (.mul a b) := of_operandCount _ (Nat.le_refl 2)
theorem push (a : Reg) : Statement (.push a) := of_operandCount _ (Nat.le_succ 1)
theorem pop (a : Reg) : Statement (.pop a) := of_operandCount _ (Nat.le_succ 1)
theorem call (a : Reg) : Statement (.call a) := of_operandCount _ (Nat.le_succ 1)
theorem ret : Statement .ret := of_operandCount _ (Nat.zero_le 2)
theorem cmp (a b : Reg) : Statement (.cmp a b) := of_operandCount _ (Nat.le_refl 2)
theorem jmp (a : Reg) : Statement (.jmp a) := of_operandCount _ (Nat.le_succ 1)
theorem jeq (a : Reg) : Statement (.jeq a) := of_operandCount _ (Nat.le_succ 1)
theorem jne (a : Reg) : Statement (.jne a) := of_operandCount _ (Nat.le_succ 1)

end Sys2Proof.Laws.EncodingShape
end

