-- ==== Sys2Proof/Laws/Step.lean ====
section
/-! SUPPORT. Laws/Step.lean: what a fetch reads and what a step can do. -/

namespace Sys2Proof.Machine

/-- A fetch reads the opcode first (R101). -/
theorem State.fetchBytes_cons (s : State) : ∃ tail, s.fetchBytes = s.opcodeByte :: tail ∧ tail.length ≤ 2 := by
  refine ⟨_, rfl, ?_⟩
  split <;> split <;> simp

/-- Everything a step can do: it runs the decoded instruction, or the bytes decode to none and it faults (R107). -/
theorem step_cases {s t : State} (h : step s = .next t) :
    s.run = .running ∧
      ((∃ i rest, s.fetchDecode = .ok (i, rest) ∧ exec i s = .next t) ∨
        (∃ e, s.fetchDecode = .error e ∧ t = s.raiseFault .unrecognizedOpcode s.opcodeByte)) := by
  unfold step at h
  split at h
  · rename_i hrun
    refine ⟨hrun, ?_⟩
    split at h
    · rename_i i rest hd
      exact .inl ⟨i, rest, hd, h⟩
    · rename_i e hd
      cases h
      exact .inr ⟨e, hd, rfl⟩
  · cases h
  · cases h

/-- What a decoded fetch says of the opcode byte (R102). -/
theorem State.fetchDecode_ok {s : State} {i : Instr} {rest : List Byte} (h : s.fetchDecode = .ok (i, rest)) :
    s.config.recognizes i.mnemonic = true ∧ s.opcodeOf i.mnemonic = s.opcodeByte := by
  obtain ⟨op, tail, hbs, hl, -⟩ := decodeBytes_ok h
  obtain ⟨tail', hbs', -⟩ := s.fetchBytes_cons
  rw [hbs'] at hbs
  cases hbs
  exact Config.lookup_some hl

end Sys2Proof.Machine
end

