-- ==== Sys2Proof/Tests/Slice0.lean ====
section
/-! SUPPORT. Tests/Slice0.lean: the model's own tests. Expected values come from spec/95_test_vectors.md and from the
encodings of 30_encoding.md, never from the model. A `witness_` theorem shows that a statement's hypotheses can be met
together. -/

open Sys2Proof Sys2Proof.Machine

namespace Sys2Proof.Tests

/-- The next state of an outcome, if there is one. -/
def nextOf : Host.Outcome State Fault Refusal → Option State
  | .next s => some s
  | .fault _ => none
  | .refused _ => none

/-- The reset machine with bytes stored at an address and pc there. -/
def setUp (pc : Addr) (bytes : List Byte) : State := (State.reset.storeBytes pc bytes).jump pc

/-- The same machine under other parameters. -/
def under (c : Config) (s : State) : State := { s with config := c }

/-- The default parameters with the wrap policy. -/
def wrapConfig : Config := { Config.default with stackPolicy := .wrap }

/-- The default parameters with the dispatched set. -/
def dispatchedConfig : Config := { Config.default with declaredSet := .dispatched }

/-! ## Well-formedness refuses ill-formed terms (R76, R77) -/

theorem test_default_map_wf : OpcodeMap.ls8.wf = true := by decide

/-- ADD's byte with a count field of 1. -/
theorem test_wf_refuses_wrong_count : ({ OpcodeMap.ls8 with add := 0x60 } : OpcodeMap).countsAgree = false := by decide

/-- JMP's byte with bit 4 clear. -/
theorem test_wf_refuses_wrong_sets_pc : ({ OpcodeMap.ls8 with jmp := 0x44 } : OpcodeMap).setsPcAgree = false := by
  decide

/-- MUL with ADD's byte. -/
theorem test_wf_refuses_shared_byte : ({ OpcodeMap.ls8 with mul := 0xA0 } : OpcodeMap).distinct = false := by decide

theorem test_wf_refuses_declared_when_dispatched : (Instr.cmp 0 1).wf dispatchedConfig = false := by decide

theorem test_memory_form_refuses_unsorted : Memory.wf [(2, 1), (1, 1)] = false := by decide
theorem test_memory_form_refuses_zero_cell : Memory.wf [(1, 0)] = false := by decide
theorem test_memory_form_refuses_high_address : Memory.wf [(256, 1)] = false := by decide

/-! ## Decoding, one word per operation, bits from R76 and R79 -/

theorem test_decode_hlt : decodeBytes .default [0b00000001] = .ok (.hlt, []) := by decide
theorem test_decode_ldi : decodeBytes .default [0b10000010, 0b00001001, 0b11111111] = .ok (.ldi 1 0xFF, []) := by
  decide
theorem test_decode_prn : decodeBytes .default [0b01000111, 0b00000101] = .ok (.prn 5, []) := by decide
theorem test_decode_add : decodeBytes .default [0b10100000, 0b00000000, 0b00000001] = .ok (.add 0 1, []) := by decide
theorem test_decode_mul : decodeBytes .default [0b10100010, 0b11111000, 0b11111111] = .ok (.mul 0 7, []) := by decide
theorem test_decode_push : decodeBytes .default [0b01000101, 0b00000011] = .ok (.push 3, []) := by decide
theorem test_decode_pop : decodeBytes .default [0b01000110, 0b00000100] = .ok (.pop 4, []) := by decide
theorem test_decode_call : decodeBytes .default [0b01010000, 0b00000111] = .ok (.call 7, []) := by decide
theorem test_decode_ret : decodeBytes .default [0b00010001] = .ok (.ret, []) := by decide
theorem test_decode_cmp : decodeBytes .default [0b10100111, 0b00000000, 0b00000010] = .ok (.cmp 0 2, []) := by decide
theorem test_decode_jmp : decodeBytes .default [0b01010100, 0b00000110] = .ok (.jmp 6, []) := by decide
theorem test_decode_jeq : decodeBytes .default [0b01010101, 0b00000011] = .ok (.jeq 3, []) := by decide
theorem test_decode_jne : decodeBytes .default [0b01010110, 0b00000010, 0b00000001] = .ok (.jne 2, [0x01]) := by
  decide

/-- Table 2.1's unrecognized bytes, and the declared bytes under the dispatched set. -/
theorem test_decode_rejects :
    [0x00, 0x57, 0xA1, 0xC0, 0xFF].all (fun b => (Config.default.lookup b).isNone) = true ∧
      [0x54, 0x55, 0x56, 0xA7].all (fun b => (dispatchedConfig.lookup b).isNone) = true := by decide

theorem test_decode_truncated : decodeBytes .default [0xA7, 0x01] = .error (.truncated .cmp) := by decide

/-- Table 2.1's rows for 0xFF and 0x50. -/
theorem test_op_shape : opShape 0xFF = ⟨3, true⟩ ∧ opShape 0x50 = ⟨1, true⟩ := by decide

theorem test_encode_ldi : encode .default (.ldi 3 0x2A) = [0x82, 0x03, 0x2A] := by decide
theorem test_table_word : decodeTableWord 24 0x2A0382 = some (.ldi 3 0x2A) ∧ decodeTableWord 8 0xA0 = some (.add 0 0) := by
  decide

/-! ## One step each, vectors of 2.2 to 2.6 -/

/-- 2.2: LDI across the top of memory. -/
theorem test_ldi_wraps_fetch :
    (nextOf (step (setUp 0xFE [0x82, 0x03, 0x2A]))).map (fun t => (t.readReg 3, t.pc)) = some (0x2A, 0x01) := by decide

/-- 2.3: LDI R7 moves the stack. -/
theorem test_ldi_r7 : (nextOf (step (setUp 0x00 [0x82, 0x07, 0x10]))).map (·.sp) = some 0x10 := by decide

/-- 2.2: PRN at 0xFF with its operand at 0x00. -/
theorem test_prn_wraps_fetch :
    (nextOf (step ((setUp 0xFF [0x47, 0x02]).writeReg 2 0x11))).map (fun t => (t.out, t.pc)) = some ([17], 0x01) := by
  decide

/-- 2.2 and R120: HLT at 0xFF. -/
theorem test_hlt_at_top :
    (nextOf (step (setUp 0xFF [0x01]))).map (fun t => (t.run, t.pc)) = some (.halted, 0x00) := by decide

/-- 2.4: 200 + 100 is 44, the second operand kept. -/
theorem test_add_wraps :
    (nextOf (step (((setUp 0x00 [0xA0, 0x00, 0x01]).writeReg 0 0xC8).writeReg 1 0x64))).map
      (fun t => (t.readReg 0, t.readReg 1, t.fl)) = some (0x2C, 0x64, 0x00) := by decide

/-- 2.4: doubling 0x81. -/
theorem test_add_same_register :
    (nextOf (step ((setUp 0x00 [0xA0, 0x00, 0x00]).writeReg 0 0x81))).map (·.readReg 0) = some 0x02 := by decide

/-- 2.4: 255 times 255 is 1, FL = 02 kept. -/
theorem test_mul_low_byte :
    (nextOf (step ((((setUp 0x00 [0xA2, 0x00, 0x01]).writeReg 0 0xFF).writeReg 1 0xFF).writeFl 0x02))).map
      (fun t => (t.readReg 0, t.fl)) = some (0x01, 0x02) := by decide

/-- 2.4: FF against 01 is greater, unsigned. -/
theorem test_cmp_unsigned :
    (nextOf (step (((setUp 0x00 [0xA7, 0x00, 0x01]).writeReg 0 0xFF).writeReg 1 0x01))).map (·.fl) = some 0x02 := by
  decide

/-- 2.4: CMP R2,R2 is equal. -/
theorem test_cmp_same_register :
    (nextOf (step ((setUp 0x00 [0xA7, 0x02, 0x02]).writeReg 2 0x37))).map (·.fl) = some 0x01 := by decide

/-- 2.5: PUSH R7 stores the lowered SP. -/
theorem test_push_r7 :
    (nextOf (step (setUp 0x00 [0x45, 0x07]))).map (fun t => (t.sp, t.memRead 0xF3)) = some (0xF3, 0xF3) := by decide

/-- 2.2: a PUSH that overwrites its own operand byte runs as fetched. -/
theorem test_push_over_own_operand :
    (nextOf (step (((setUp 0x40 [0x45, 0x00]).writeReg 7 0x42).writeReg 0 0x99))).map
      (fun t => (t.sp, t.memRead 0x41, t.pc)) = some (0x41, 0x99, 0x42) := by decide

/-- 2.5: PUSH at SP = 00 under the fault policy. -/
theorem test_push_overflow :
    (nextOf (step (((setUp 0x10 [0x45, 0x00]).writeReg 7 0x00).writeReg 0 0x77))).map
      (fun t => (t.run, t.sp, t.memRead 0xFF, t.pc)) = some (.faulted .stackOverflow 0x10 0x45, 0x00, 0x00, 0x10) := by
  decide

/-- 2.5: PUSH at SP = 00 under the wrap policy. -/
theorem test_push_wraps :
    (nextOf (step (under wrapConfig (((setUp 0x10 [0x45, 0x00]).writeReg 7 0x00).writeReg 0 0x77)))).map
      (fun t => (t.sp, t.memRead 0xFF)) = some (0xFF, 0x77) := by decide

/-- 2.5: POP R7 leaves the popped byte plus one. -/
theorem test_pop_r7 :
    (nextOf (step (((setUp 0x00 [0x46, 0x07]).writeReg 7 0xF3).memWrite 0xF3 0x20))).map (·.sp) = some 0x21 := by decide

/-- 2.5: POP at SP = FF under the wrap policy. -/
theorem test_pop_wraps :
    (nextOf (step (under wrapConfig (((setUp 0x00 [0x46, 0x00]).writeReg 7 0xFF).memWrite 0xFF 0x3C)))).map
      (fun t => (t.readReg 0, t.sp)) = some (0x3C, 0x00) := by decide

/-- 2.5: POP at SP = F4 under the fault policy, the first instruction after reset. -/
theorem test_pop_underflow :
    (nextOf (step (setUp 0x00 [0x46, 0x00]))).map (fun t => (t.run, t.sp, t.exitStatus)) =
      some (.faulted .stackUnderflow 0x00 0x46, 0xF4, some 4) := by decide

/-- 2.5: CALL at FF pushes 01. -/
theorem test_call_wraps :
    (nextOf (step ((setUp 0xFF [0x50, 0x01]).writeReg 1 0x20))).map (fun t => (t.memRead 0xF3, t.pc)) =
      some (0x01, 0x20) := by decide

/-- 2.5: CALL R7 jumps to the lowered SP. -/
theorem test_call_r7 :
    (nextOf (step (setUp 0x10 [0x50, 0x07]))).map (fun t => (t.sp, t.memRead 0xF3, t.pc)) =
      some (0xF3, 0x12, 0xF3) := by decide

/-- 2.5: RET. -/
theorem test_ret :
    (nextOf (step (((setUp 0x20 [0x11]).writeReg 7 0xF3).memWrite 0xF3 0x08))).map (fun t => (t.pc, t.sp)) =
      some (0x08, 0xF4) := by decide

/-- 2.5: RET at SP = FF under the fault policy. -/
theorem test_ret_underflow :
    (nextOf (step ((setUp 0x20 [0x11]).writeReg 7 0xFF))).map (·.run) =
      some (.faulted .stackUnderflow 0x20 0x11) := by decide

/-- 2.6: JMP R3. -/
theorem test_jmp : (nextOf (step ((setUp 0x14 [0x54, 0x03]).writeReg 3 0x0C))).map (·.pc) = some 0x0C := by decide

/-- 2.6: JEQ with E set. -/
theorem test_jeq_taken :
    (nextOf (step (((setUp 0x14 [0x55, 0x03]).writeReg 3 0x0C).writeFl 0x01))).map (·.pc) = some 0x0C := by decide

/-- 2.6: JEQ at FE not taken, wrapping. -/
theorem test_jeq_not_taken_wraps :
    (nextOf (step (((setUp 0xFE [0x55, 0x03]).writeReg 3 0x0C).writeFl 0x04))).map (·.pc) = some 0x00 := by decide

/-- 2.6: JNE with L set. -/
theorem test_jne_taken :
    (nextOf (step (((setUp 0x14 [0x56, 0x03]).writeReg 3 0x0C).writeFl 0x04))).map (·.pc) = some 0x0C := by decide

/-- 2.6: JNE with E set. -/
theorem test_jne_not_taken :
    (nextOf (step (((setUp 0x14 [0x56, 0x03]).writeReg 3 0x0C).writeFl 0x01))).map (·.pc) = some 0x16 := by decide

/-- 2.2: CMP's byte under the dispatched set. -/
theorem test_cmp_dispatched :
    (nextOf (step (under dispatchedConfig (setUp 0x30 [0xA7])))).map (fun t => (t.run, t.pc)) =
      some (.faulted .unrecognizedOpcode 0x30 0xA7, 0x30) := by decide

/-- W6: an image that begins with 0xFF. -/
theorem test_unrecognized_first_byte :
    (nextOf (step (setUp 0x00 [0xFF]))).map (fun t => (t.run, t.exitStatus, t.out)) =
      some (.faulted .unrecognizedOpcode 0x00 0xFF, some 3, []) := by decide

/-- R35: Out(72) is the three bytes of 72 and a newline. -/
theorem test_render : renderOut 72 = [0x37, 0x32, 0x0A] ∧ renderOut 0 = [0x30, 0x0A] ∧
    renderOut 255 = [0x32, 0x35, 0x35, 0x0A] := by decide

/-- R12: the source's own spelling of an instruction. -/
theorem test_asm : asm (.mul 0 1) = "MUL R0, R1" := by decide

/-! ## The step the host makes with a table word -/

theorem test_fetch_word :
    (nextOf (step (State.reset.withFetchWord 24 0x2A0382))).map (fun t => (t.readReg 3, t.pc)) =
      some (0x2A, 0x03) := by decide

/-! ## Witnesses: the hypotheses of each statement can be met -/

/-- The well-formed parameters that most statements ask for, in the full and in the dispatched set. -/
theorem witness_config_wf : Config.default.wf = true ∧ Config.default.declaredSet = .full ∧
    dispatchedConfig.wf = true ∧ dispatchedConfig.declaredSet = .dispatched := by decide

/-- PushStoresBelowSp, CallPushesReturnAddress, CallThenRetReturns, PushThenPopMovesRegister: SP = 01 under the fault
policy, and SP = 00 under the wrap policy. -/
theorem witness_push_room :
    (State.reset.writeReg 7 0x01).config.stackPolicy = .fault ∧ (State.reset.writeReg 7 0x01).sp ≠ 0x00 ∧
      (State.reset.writeReg 7 0x01).sp.toNat ≤ 0xF4 ∧
      (under wrapConfig (State.reset.writeReg 7 0x00)).config.stackPolicy = .wrap := by decide

/-- PopLoadsTop, RetPopsPc: SP = F3 under the fault policy, and SP = FF under the wrap policy; both clauses on a. -/
theorem witness_pop_room :
    (State.reset.writeReg 7 0xF3).config.stackPolicy = .fault ∧ (State.reset.writeReg 7 0xF3).sp.toNat < 0xF4 ∧
      (under wrapConfig (State.reset.writeReg 7 0xFF)).config.stackPolicy = .wrap ∧ (6 : Reg) ≠ 7 := by decide

/-- JeqJumpsIfEqual, JneJumpsIfNotEqual: both clauses on bit 0 of FL, and OnlyEFlagIsRead's other value. -/
theorem witness_branch_flags : State.reset.fl.toNat % 2 = 0 ∧ (State.reset.writeFl 0x01).fl.toNat % 2 = 1 ∧
    (0x04 : Byte).toNat % 2 = State.reset.fl.toNat % 2 := by decide

/-- OnlyEFlagIsRead: a JEQ is no CMP and its premise on bit 0 is met. -/
theorem witness_flag_readers : (∀ a b, Instr.jeq 3 ≠ .cmp a b) ∧ ∃ a, Instr.jeq 3 = .jeq a ∨ Instr.jeq 3 = .jne a :=
  ⟨by simp, 3, .inl rfl⟩

/-- PushAndCallOverflowAtZero. -/
theorem witness_overflow : State.reset.config.stackPolicy = .fault ∧ (State.reset.writeReg 7 0x00).sp = 0x00 := by
  decide

/-- PopAndRetUnderflowFromInit: the boundary SP = F4, which reset leaves. -/
theorem witness_underflow : State.reset.config.stackPolicy = .fault ∧ 0xF4 ≤ State.reset.sp.toNat := by decide

/-- WrapPolicyHasNoStackChecks: each of its three SP clauses. -/
theorem witness_wrap_clauses :
    (under wrapConfig State.reset).config.stackPolicy = .wrap ∧ (under wrapConfig State.reset).sp = 0xF4 ∧
      (under wrapConfig (State.reset.writeReg 7 0x00)).sp = 0x00 ∧
      (under wrapConfig (State.reset.writeReg 7 0xFF)).sp = 0xFF := by decide

/-- StackStaysWithinLimits: a PUSH at reset, SP at the limit. -/
theorem witness_stack_limits :
    State.reset.config.stackPolicy = .fault ∧ State.reset.sp.toNat ≤ 0xF4 ∧ (∀ v, Instr.push 0 ≠ .ldi 7 v) ∧
      (∀ b, Instr.push 0 ≠ .add 7 b) ∧ (∀ b, Instr.push 0 ≠ .mul 7 b) ∧ Instr.push 0 ≠ .pop 7 ∧
      ∃ t, exec (.push 0) State.reset = .next t :=
  ⟨rfl, by decide, by simp, by simp, by simp, by simp, _, rfl⟩

/-- CallThenRetReturns: the state CALL leaves meets the condition on SP and its cell, and a RET there does not
underflow. -/
theorem witness_call_then_ret : ∃ t, exec (.call 1) State.reset = .next t ∧ t.sp.toNat < 0xF4 := ⟨_, rfl, by decide⟩

/-- PushThenPopMovesRegister: SP at both ends of its range, m = 6. -/
theorem witness_push_then_pop : State.reset.sp ≠ 0x00 ∧ State.reset.sp.toNat ≤ 0xF4 ∧ (6 : Reg) ≠ 7 := by decide

/-- DecodeOfEncode. -/
theorem witness_decode_of_encode : Config.default.wf = true ∧ (Instr.cmp 0 1).wf .default = true := by decide

/-- DecodedBytesAreTheEncoding, LengthFromOpcodeByte: a word whose register byte has high bits set. -/
theorem witness_decoded : decodeBytes .default [0x82, 0xF8, 0x00, 0x01] = .ok (.ldi 0 0x00, [0x01]) := by decide

/-- CountThreeIsNeverRecognized: the boundary 0xC0. -/
theorem witness_count_three : 0xC0 ≤ (0xC0 : Byte).toNat := by decide

/-- RegisterByteHighBitsIgnored: each clause, with bytes that differ above bit 2. -/
theorem witness_register_bytes :
    (0x01 : Byte).toNat % 8 = (0xF9 : Byte).toNat % 8 ∧ Config.default.lookup 0x45 = some .push ∧
      Mnemonic.push.operandCount ≠ 0 ∧ Config.default.lookup 0xA0 = some .add ∧
      Config.default.lookup 0xA2 = some .mul ∧ Config.default.lookup 0xA7 = some .cmp := by decide

/-- LoadPlacesImage: an image of exactly 256 bytes. -/
theorem witness_full_image : (List.replicate 256 (0x01 : Byte)).length ≤ 256 :=
  le_of_eq List.length_replicate

/-- LongImageIsRefused: an image of 257 bytes. -/
theorem witness_long_image : 256 < (List.replicate 257 (0x01 : Byte)).length :=
  lt_of_lt_of_eq (Nat.lt_succ_self 256) List.length_replicate.symm

/-- ExitStatusOfRunState: each run state. -/
theorem witness_run_states : State.reset.run = .running ∧ State.reset.halt.run = .halted ∧
    (State.reset.raiseFault .unrecognizedOpcode 0xFF).run = .faulted .unrecognizedOpcode 0x00 0xFF ∧
    (State.reset.raiseFault .stackOverflow 0x45).run = .faulted .stackOverflow 0x00 0x45 ∧
    (State.reset.raiseFault .stackUnderflow 0x46).run = .faulted .stackUnderflow 0x00 0x46 := by decide

/-- StepRunsDecodedInstruction. -/
theorem witness_decoded_fetch : (setUp 0x00 [0x45, 0x00]).run = .running ∧
    decodeBytes (setUp 0x00 [0x45, 0x00]).config (setUp 0x00 [0x45, 0x00]).fetchBytes = .ok (.push 0, []) := by decide

/-- StepRunsEncodedInstruction: an instruction that starts at 0xFE and wraps. -/
theorem witness_encoded_fetch : (setUp 0xFE [0x82, 0x03, 0x2A]).run = .running ∧
    (Instr.ldi 3 0x2A).wf (setUp 0xFE [0x82, 0x03, 0x2A]).config = true ∧
    ∀ k, k < 3 → (setUp 0xFE [0x82, 0x03, 0x2A]).memRead (0xFE + BitVec.ofNat 8 k) =
      (encode .default (.ldi 3 0x2A)).getD k 0 := by decide

/-- UnrecognizedOpcodeFaults: the reset state, whose first byte is 0x00. -/
theorem witness_unrecognized : State.reset.run = .running ∧
    ∀ m, State.reset.config.recognizes m = true →
      State.reset.config.opcodeMap.byteOf m ≠ State.reset.memRead State.reset.pc :=
  ⟨rfl, fun m => by cases m <;> decide⟩

/-- TerminalStatesAreFinal, both terminal states, and the run that stays. -/
theorem witness_terminal : State.reset.halt.run ≠ .running ∧
    (State.reset.raiseFault .stackOverflow 0x45).run ≠ .running ∧ Reaches State.reset.halt State.reset.halt :=
  ⟨by decide, by decide, .refl _⟩

/-- FaultsAreExactlyTheThree, FaultChangesOnlyRunState: a step that faults, of each kind. -/
theorem witness_fault_steps :
    (∃ t, step (setUp 0x00 [0xFF]) = .next t ∧ t.run = .faulted .unrecognizedOpcode 0x00 0xFF) ∧
    (∃ t, step ((setUp 0x00 [0x50, 0x00]).writeReg 7 0x00) = .next t ∧ t.run = .faulted .stackOverflow 0x00 0x50) ∧
    (∃ t, step (setUp 0x00 [0x11]) = .next t ∧ t.run = .faulted .stackUnderflow 0x00 0x11) :=
  ⟨⟨_, rfl, rfl⟩, ⟨_, rfl, rfl⟩, ⟨_, rfl, rfl⟩⟩

/-- PcFollowsOpcodeFields, OnlyHltHalts: a step that does not fault, with bit 4 clear and with bit 4 set. -/
theorem witness_pc_steps :
    (∃ t, step (setUp 0x00 [0x01]) = .next t ∧ t.run = .halted ∧
      (opShape ((setUp 0x00 [0x01]).memRead 0x00)).setsPc = false) ∧
    (∃ t, step (setUp 0x00 [0x54, 0x00]) = .next t ∧ t.run = .running ∧
      (opShape ((setUp 0x00 [0x54, 0x00]).memRead 0x00)).setsPc = true) :=
  ⟨⟨_, rfl, rfl, by decide⟩, ⟨_, rfl, rfl, by decide⟩⟩

/-- JumpToSelfRunsForever: JMP R0 at 0x00 with R0 = 0x00. -/
theorem witness_jump_to_self : (setUp 0x00 [0x54, 0x00]).run = .running ∧
    (setUp 0x00 [0x54, 0x00]).memRead 0x00 = Config.default.opcodeMap.jmp ∧
    (setUp 0x00 [0x54, 0x00]).readReg (regOf ((setUp 0x00 [0x54, 0x00]).memRead 0x01)) = 0x00 := by decide

/-- DispatchedSetRejectsDeclared. -/
theorem witness_dispatched : (under dispatchedConfig (setUp 0x00 [0x55])).run = .running ∧
    (under dispatchedConfig (setUp 0x00 [0x55])).memRead 0x00 = dispatchedConfig.opcodeMap.jeq := by decide

/-- PushedByteIsFetchedNext: P6's PUSH, whose byte is the next opcode. -/
theorem witness_push_next_opcode :
    ((setUp 0x06 [0x45, 0x00]).writeReg 7 0x09).run = .running ∧
      ((setUp 0x06 [0x45, 0x00]).writeReg 7 0x09).config.wf = true ∧
      ((setUp 0x06 [0x45, 0x00]).writeReg 7 0x09).memRead 0x06 = Config.default.opcodeMap.push ∧
      ((setUp 0x06 [0x45, 0x00]).writeReg 7 0x09).sp ≠ 0x00 ∧
      ((setUp 0x06 [0x45, 0x00]).writeReg 7 0x09).pushAddr = 0x06 + 2 := by decide

/-- OnlyCmpChangesFl: a CMP that changes FL. -/
theorem witness_fl_change : ∃ t, step (setUp 0x00 [0xA7, 0x00, 0x00]) = .next t ∧ t.fl ≠ 0x00 :=
  ⟨_, rfl, by decide⟩

/-- MemoryAccessesOfEachInstruction: another memory that agrees at SP and at the fetched cells. -/
theorem witness_other_memory : Memory.read [(0x80, 0x01)] State.reset.sp = State.reset.memRead State.reset.sp ∧
    Memory.read [(0x80, 0x01)] 0x00 = State.reset.memRead 0x00 ∧
    Memory.read [(0x80, 0x01)] 0x01 = State.reset.memRead 0x01 ∧
    Memory.read [(0x80, 0x01)] 0x02 = State.reset.memRead 0x02 ∧ (∀ a, Instr.hlt ≠ .push a ∧ Instr.hlt ≠ .pop a ∧
      Instr.hlt ≠ .call a) ∧ Instr.hlt ≠ .ret := ⟨by decide, by decide, by decide, by decide, by simp, by simp⟩

/-- OnlyStackWritesMemory: a PUSH that changes the cell below SP. -/
theorem witness_cell_change : ∃ t, step (setUp 0x00 [0x45, 0x07]) = .next t ∧ t.memRead 0xF3 ≠ 0x00 :=
  ⟨_, rfl, by decide⟩

/-- OutputIsEmittedAndNeverRead: a PRN's step. -/
theorem witness_output : ∃ t, step (setUp 0x00 [0x47, 0x07]) = .next t ∧ t.out = [0xF4] := ⟨_, rfl, by decide⟩

/-- StepKeepsInvariant: a state with a loaded HLT meets the invariant and steps. -/
theorem witness_invariant_step : (setUp 0x00 [0x01]).Inv ∧ ∃ t, step (setUp 0x00 [0x01]) = .next t :=
  ⟨⟨by decide, by decide, by decide, by decide, trivial⟩, _, rfl⟩

/-- EveryRunKeepsInvariant: an image that loads and a run of one step from it. -/
theorem witness_run : ∃ s t, load .default [0x01] = .next s ∧ Reaches s t ∧ t.run = .halted :=
  ⟨_, _, rfl, .tail (.refl _) rfl, rfl⟩

end Sys2Proof.Tests
end

section
/-! PROOFS. The family of 10_state.md: the state after reset and load, the program counter, FL, the output, exit
statuses, and the machine's invariant. -/

namespace Sys2Proof.Machine

/-! ### The fetch and the step under a map that keeps R77 -/

/-- Under a map that keeps R77 a recognized opcode's count field asks for exactly its operand bytes, so the fetch
decodes to the operation at pc with the two bytes after it (R75, R101). -/
theorem State.fetchDecode_of_lookup {s : State} {m : Mnemonic} (hwf : s.config.wf = true)
    (hl : s.config.lookup s.opcodeByte = some m) :
    s.fetchDecode = .ok (m.instr s.operandByte1 s.operandByte2, []) := by
  have hcount : (opShape s.opcodeByte).operandCount = m.operandCount := by
    rw [← (Config.lookup_some hl).2]
    exact ((OpcodeMap.wf_iff _).mp hwf).1 m
  simp only [State.fetchDecode, State.fetchBytes, decodeBytes, hl, hcount]
  cases m <;> rfl

/-- A RUNNING machine runs the operation looked up for the byte at pc, under a map that keeps R77 (R102, R107). -/
theorem step_of_lookup {s : State} {m : Mnemonic} (hwf : s.config.wf = true) (hrun : s.run = .running)
    (hl : s.config.lookup s.opcodeByte = some m) : step s = exec (m.instr s.operandByte1 s.operandByte2) s := by
  unfold step
  rw [hrun, State.fetchDecode_of_lookup hwf hl]

/-- A RUNNING machine faults where the lookup of the byte at pc finds nothing (R103). -/
theorem step_of_lookup_none {s : State} (hrun : s.run = .running) (hl : s.config.lookup s.opcodeByte = none) :
    step s = .next (s.raiseFault .unrecognizedOpcode s.opcodeByte) := by
  have hd : s.fetchDecode = .error (.unrecognizedOpcode s.opcodeByte) := decodeBytes_unrecognized hl
  unfold step
  rw [hrun, hd]

/-- Everything a step can do under a map that keeps R77: run the operation looked up for the byte at pc, or fault where
none is found; a recognized instruction is never truncated (R102, R103, R107). -/
theorem step_cases_of_wf {s t : State} (hwf : s.config.wf = true) (h : step s = .next t) :
    (∃ m, s.config.lookup s.opcodeByte = some m ∧ exec (m.instr s.operandByte1 s.operandByte2) s = .next t) ∨
      (s.config.lookup s.opcodeByte = none ∧ t = s.raiseFault .unrecognizedOpcode s.opcodeByte) := by
  have hrun := (step_cases h).1
  cases hl : s.config.lookup s.opcodeByte with
  | none =>
    rw [step_of_lookup_none hrun hl] at h
    cases h
    exact .inr ⟨rfl, rfl⟩
  | some m => exact .inl ⟨m, rfl, (step_of_lookup hwf hrun hl).symm.trans h⟩

/-- Every instruction has a next state, under the same parameters (R203). -/
theorem exec_next (i : Instr) (s : State) : ∃ t, exec i s = .next t ∧ t.config = s.config := by
  cases i with
  | push _ | call _ | pop _ | ret =>
    simp only [exec, execPush, execCall, execPop, execRet]
    split <;> exact ⟨_, rfl, rfl⟩
  | _ => exact ⟨_, rfl, rfl⟩

/-- An instruction keeps the parameters (R9). -/
theorem exec_config {i : Instr} {s t : State} (h : exec i s = .next t) : t.config = s.config := by
  obtain ⟨u, hu, hc⟩ := exec_next i s
  rw [hu] at h
  cases h
  exact hc

/-- A step keeps the parameters (R9). -/
theorem step_config {s t : State} (h : step s = .next t) : t.config = s.config := by
  obtain ⟨-, ⟨i, rest, -, hi⟩ | ⟨e, -, rfl⟩⟩ := step_cases h
  · exact exec_config hi
  · rfl

/-- A RUNNING machine has a next state (R107, R203). -/
theorem step_next_of_running {s : State} (h : s.run = .running) : ∃ t, step s = .next t := by
  unfold step
  simp only [h]
  split
  · exact (exec_next _ _).imp fun _ ht => ht.1
  · exact ⟨_, rfl⟩

/-! ### Memory and FL after a step -/

/-- A step keeps memory's canonical form (R51, log 14). -/
theorem step_keeps_mem_wf {s t : State} (h : step s = .next t) (hm : s.mem.wf = true) : t.mem.wf = true := by
  obtain ⟨-, ⟨i, rest, -, hi⟩ | ⟨e, -, rfl⟩⟩ := step_cases h
  · rcases exec_mem_cases hi with heq | ⟨-, v, heq⟩
    · rwa [heq]
    · rw [heq]
      exact Memory.wf_write _ _ _ hm
  · exact hm

/-- CMP is recognized under the full set alone (R76). -/
theorem declaredSet_full_of_recognizes_cmp {c : Config} (h : c.recognizes .cmp = true) : c.declaredSet = .full := by
  cases hd : c.declaredSet with
  | full => rfl
  | dispatched => simp [Config.recognizes, hd, Mnemonic.declaredOnly] at h

/-- What a step does to FL: nothing, or the one flag of a CMP recognized under the full set (R29, R146). -/
theorem step_fl_cases {s t : State} (h : step s = .next t) :
    t.fl = s.fl ∨ (s.opcodeByte = s.config.opcodeMap.cmp ∧ s.config.declaredSet = .full ∧
      (t.fl = 0x01 ∨ t.fl = 0x02 ∨ t.fl = 0x04)) := by
  obtain ⟨-, ⟨i, rest, hd, hi⟩ | ⟨e, -, rfl⟩⟩ := step_cases h
  · rcases exec_fl_cases hi with heq | ⟨a, b, rfl, hflag⟩
    · exact .inl heq
    · obtain ⟨hrec, hbyte⟩ := State.fetchDecode_ok hd
      exact .inr ⟨hbyte.symm, declaredSet_full_of_recognizes_cmp hrec, hflag⟩
  · exact .inl rfl

/-! ### The run record -/

/-- A RUNNING machine has no record to keep true. -/
theorem State.recordTrue_of_running {s : State} (h : s.run = .running) : s.RunRecordTrue := by
  simp [State.RunRecordTrue, h]

/-- After HLT the byte before pc is HLT's (R104, R120). -/
theorem execHlt_recordTrue {s t : State} (h : execHlt s = .next t) (hop : s.opcodeOf .hlt = s.opcodeByte) :
    t.RunRecordTrue := by
  cases h
  change s.memRead (s.pc + 1 - 1) = s.opcodeOf .hlt
  rw [BitVec.add_sub_cancel, hop]
  rfl

/-- The record of an unrecognized opcode is true where the lookup finds nothing (R103, R200). -/
theorem State.raiseUnrecognized_recordTrue {s : State} (h : s.config.lookup s.opcodeByte = none) :
    (s.raiseFault .unrecognizedOpcode s.opcodeByte).RunRecordTrue :=
  ⟨rfl, rfl, Config.lookup_none.mp h⟩

/-- The record of a stack overflow is true where a push of the opcode at pc overflows (R161, R200). -/
theorem State.raiseOverflow_recordTrue {s : State} {m : Mnemonic} (hop : s.opcodeOf m = s.opcodeByte)
    (hm : m = .push ∨ m = .call) (h : s.pushOverflows = true) :
    (s.raiseFault .stackOverflow (s.opcodeOf m)).RunRecordTrue := by
  obtain ⟨hpolicy, hsp⟩ := s.pushOverflows_iff.mp h
  exact ⟨rfl, hop, hpolicy, hsp, hm.imp (congrArg s.opcodeOf) (congrArg s.opcodeOf)⟩

/-- The record of a stack underflow is true where a pop of the opcode at pc underflows (R162, R200). -/
theorem State.raiseUnderflow_recordTrue {s : State} {m : Mnemonic} (hop : s.opcodeOf m = s.opcodeByte)
    (hm : m = .pop ∨ m = .ret) (h : s.popUnderflows = true) :
    (s.raiseFault .stackUnderflow (s.opcodeOf m)).RunRecordTrue := by
  obtain ⟨hpolicy, hsp⟩ := s.popUnderflows_iff.mp h
  exact ⟨rfl, hop, hpolicy, hsp, hm.imp (congrArg s.opcodeOf) (congrArg s.opcodeOf)⟩

/-- A step leaves a true run record, under a map that keeps R77 (R200, R201). -/
theorem step_recordTrue {s t : State} (hwf : s.config.wf = true) (h : step s = .next t) : t.RunRecordTrue := by
  rcases step_cases_of_wf hwf h with ⟨m, hl, hi⟩ | ⟨hl, rfl⟩
  · have hop : s.opcodeOf m = s.opcodeByte := (Config.lookup_some hl).2
    have hcases := exec_run_cases hi
    rw [Mnemonic.instr_mnemonic] at hcases
    rcases hcases with ⟨hrun, -⟩ | ⟨hhlt, -⟩ | ⟨rfl, hover, hm⟩ | ⟨rfl, hunder, hm⟩
    · exact State.recordTrue_of_running (hrun.trans (step_cases h).1)
    · obtain rfl : .hlt = m := (congrArg Instr.mnemonic hhlt.symm).trans (m.instr_mnemonic _ _)
      exact execHlt_recordTrue hi hop
    · exact State.raiseOverflow_recordTrue hop hm hover
    · exact State.raiseUnderflow_recordTrue hop hm hunder
  · exact State.raiseUnrecognized_recordTrue hl

/-! ### The invariant -/

/-- Settles O53: each clause of the invariant from what a step does to the field it speaks of. -/
theorem stepKeepsInvariant : Obligations.StepKeepsInvariant := by
  intro s t hs h
  have hc := step_config h
  refine ⟨⟨hc ▸ hs.config_wf, step_keeps_mem_wf h hs.mem_wf, ?_, ?_, step_recordTrue hs.config_wf h⟩, hc⟩
  · rcases step_fl_cases h with heq | ⟨-, -, e | e | e⟩
    · exact heq ▸ hs.fl_legal
    all_goals simp [e]
  · intro hset
    rw [hc] at hset
    rcases step_fl_cases h with heq | ⟨-, hfull, -⟩
    · exact heq.trans (hs.fl_unwritten hset)
    · rw [hset] at hfull
      cases hfull

/-- The state after reset meets the invariant, under any parameters that keep R77 (R40). -/
theorem State.resetWith_inv {c : Config} (hc : c.wf = true) : (State.resetWith c).Inv where
  config_wf := hc
  mem_wf := rfl
  fl_legal := List.mem_cons_self
  fl_unwritten _ := rfl
  record_true := trivial

/-- Settles O54: the case of the default parameters. -/
theorem resetMeetsInvariant : Obligations.ResetMeetsInvariant :=
  State.resetWith_inv (c := .default) (by decide)

/-! ### Reset and load -/

/-- The registers after reset (R40). -/
theorem State.readReg_resetWith (c : Config) (r : Reg) :
    (State.resetWith c).readReg r = if r = 7 then 0xF4 else 0x00 := by
  fin_cases r <;> rfl

/-- Settles O30: each field as reset sets it, the registers by `readReg_resetWith`. -/
theorem resetState : Obligations.ResetState :=
  ⟨State.readReg_resetWith .default, rfl, rfl, fun _ => rfl, rfl, rfl, rfl⟩

/-- An image that fits is stored from address 0 after reset (R36). -/
theorem load_of_length_le {c : Config} {image : List Byte} (h : image.length ≤ 256) :
    load c image = .next ((State.resetWith c).storeBytes 0x00 image) := if_pos h

/-- Settles O32: an image that does not fit is refused with its length. -/
theorem longImageIsRefused : Obligations.LongImageIsRefused :=
  fun _ _ h => if_neg (Nat.not_le.mpr h)

/-- Loading changes memory alone, and keeps its canonical form (R36). -/
theorem load_next {c : Config} {image : List Byte} {s : State} (h : load c image = .next s) :
    ∃ m, s = { State.resetWith c with mem := m } ∧ m.wf = true := by
  unfold load at h
  split at h
  · cases h
    obtain ⟨m, hm⟩ := (State.resetWith c).storeBytes_eq image 0x00
    have hwf := (State.resetWith c).storeBytes_wf image 0x00 rfl
    rw [hm] at hwf
    exact ⟨m, hm, hwf⟩
  · cases h

/-- A cell after loading an image that fits: the image's byte, or 0x00 past its end (R36, R40). -/
theorem State.memRead_storeBytes_resetWith (c : Config) {image : List Byte} (h : image.length ≤ 256) (a : Addr) :
    ((State.resetWith c).storeBytes 0x00 image).memRead a = image.getD a.toNat 0x00 := by
  rw [State.memRead_storeBytes _ _ _ _ (by simpa using h)]
  by_cases ha : a.toNat < image.length
  · simp [ha]
  · have hout : image.getD a.toNat 0x00 = 0x00 := List.getD_eq_default _ _ (Nat.not_lt.mp ha)
    rw [if_neg (by simpa using ha), hout]
    rfl

/-- Settles O31: memory by the loaded cells, every other field by `load_next`. -/
theorem loadPlacesImage : Obligations.LoadPlacesImage := by
  intro c image hlen
  have hload := load_of_length_le (c := c) hlen
  refine ⟨_, hload, State.memRead_storeBytes_resetWith c hlen, ?_⟩
  obtain ⟨m, hm, -⟩ := load_next hload
  rw [hm]
  exact ⟨State.readReg_resetWith c, rfl, rfl, rfl, rfl, rfl⟩

/-- A loaded machine meets the invariant under parameters that keep R77 (R36, R40). -/
theorem load_inv {c : Config} {image : List Byte} {s : State} (hc : c.wf = true) (h : load c image = .next s) :
    s.Inv ∧ s.config = c := by
  obtain ⟨m, rfl, hm⟩ := load_next h
  obtain ⟨hwf, -, hfl, hset, -⟩ := State.resetWith_inv hc
  exact ⟨⟨hwf, hm, hfl, hset, trivial⟩, rfl⟩

/-- The invariant holds along every run from a state that meets it, under the same parameters (R109). -/
theorem Reaches.keeps_inv {s t : State} (h : Reaches s t) (hs : s.Inv) : t.Inv ∧ t.config = s.config := by
  induction h with
  | refl => exact ⟨hs, rfl⟩
  | tail _ hstep ih =>
    obtain ⟨hinv, hcfg⟩ := stepKeepsInvariant _ _ ih.1 hstep
    exact ⟨hinv, hcfg.trans ih.2⟩

/-- Settles O55: the invariant at load, kept along the run. -/
theorem everyRunKeepsInvariant : Obligations.EveryRunKeepsInvariant := by
  intro c image s t hc hload hreach
  obtain ⟨hs, hcs⟩ := load_inv hc hload
  obtain ⟨ht, hct⟩ := hreach.keeps_inv hs
  exact ⟨ht, hct.trans hcs, step_next_of_running⟩

/-! ### Exit statuses -/

/-- Settles O33: the exit status and the diagnostic, one run state at a time. -/
theorem exitStatusOfRunState : Obligations.ExitStatusOfRunState := by
  intro s
  refine ⟨fun h => ?_, fun h => ?_, fun fpc fop => ⟨fun h => ⟨?_, ?_⟩, fun h => ?_, fun h => ?_⟩⟩
  all_goals simp only [State.exitStatus, State.diagnostic, h]

/-! ### The program counter -/

/-- A conditional jump assigns pc the register's value or the address after its bytes (R180). -/
theorem State.branch_pc_cases (s : State) (m : Mnemonic) (taken : Bool) (a : Reg) :
    (s.branch m taken a).pc = s.readReg a ∨ (s.branch m taken a).pc = s.nextPc m := by
  cases taken
  · exact .inr rfl
  · exact .inl rfl

/-- What an instruction that does not fault does to pc: the advance where its handler does not assign pc, and otherwise
a register of the next state, the byte at SP, or the address after its bytes (R104, R105, R180). -/
theorem exec_pc_cases {i : Instr} {s t : State} (h : exec i s = .next t) :
    (∃ k op, t = s.raiseFault k op) ∨ (i.mnemonic.setsPc = false ∧ t.pc = s.nextPc i.mnemonic) ∨
      (i.mnemonic.setsPc = true ∧ ((∃ r, t.pc = t.readReg r) ∨ t.pc = s.memRead s.sp ∨
        (i.mnemonic.operandCount = 1 ∧ t.pc = s.nextPc i.mnemonic))) := by
  cases i with
  | push a =>
    cases hb : s.pushOverflows with
    | true => rw [exec_push_faults a hb] at h; cases h; exact .inl ⟨_, _, rfl⟩
    | false => rw [exec_push_stores a hb] at h; cases h; exact .inr (.inl ⟨rfl, rfl⟩)
  | pop a =>
    cases hb : s.popUnderflows with
    | true => rw [exec_pop_faults a hb] at h; cases h; exact .inl ⟨_, _, rfl⟩
    | false => rw [exec_pop_loads a hb] at h; cases h; exact .inr (.inl ⟨rfl, rfl⟩)
  | call a =>
    cases hb : s.pushOverflows with
    | true => rw [exec_call_faults a hb] at h; cases h; exact .inl ⟨_, _, rfl⟩
    | false => rw [exec_call_calls a hb] at h; cases h; exact .inr (.inr ⟨rfl, .inl ⟨a, rfl⟩⟩)
  | ret =>
    cases hb : s.popUnderflows with
    | true => rw [exec_ret_faults hb] at h; cases h; exact .inl ⟨_, _, rfl⟩
    | false => rw [exec_ret_returns hb] at h; cases h; exact .inr (.inr ⟨rfl, .inr (.inl rfl)⟩)
  | jmp a => cases h; exact .inr (.inr ⟨rfl, .inl ⟨a, rfl⟩⟩)
  | jeq a => cases h; exact .inr (.inr ⟨rfl, (s.branch_pc_cases .jeq s.flagE a).imp (⟨a, ·⟩) (.inr ⟨rfl, ·⟩)⟩)
  | jne a => cases h; exact .inr (.inr ⟨rfl, (s.branch_pc_cases .jne (!s.flagE) a).imp (⟨a, ·⟩) (.inr ⟨rfl, ·⟩)⟩)
  | _ => cases h; exact .inr (.inl ⟨rfl, rfl⟩)

/-- Settles O42: the two fields of a well-formed map's opcode are its operation's count and sets_pc. -/
theorem pcFollowsOpcodeFields : Obligations.PcFollowsOpcodeFields := by
  intro s t hwf h hsafe
  rcases step_cases_of_wf hwf h with ⟨m, hl, hi⟩ | ⟨-, rfl⟩
  · obtain ⟨hcount, hsets, -⟩ := (OpcodeMap.wf_iff _).mp hwf
    have hop : s.config.opcodeMap.byteOf m = s.memRead s.pc := (Config.lookup_some hl).2
    have hcases := exec_pc_cases hi
    rw [← hop, hcount m, hsets m, ← s.nextPc_toNat m]
    rw [Mnemonic.instr_mnemonic] at hcases
    rcases hcases with ⟨k, op, rfl⟩ | ⟨hset, hpc⟩ | ⟨hset, hpc⟩
    · exact absurd rfl (hsafe k s.pc op)
    · simp [hset, hpc]
    · refine ⟨by simp [hset], fun _ => hpc.imp_right (Or.imp_right fun ⟨hone, hnext⟩ => ?_)⟩
      rw [hnext, s.nextPc_toNat, hone]
  · exact absurd rfl (hsafe .unrecognizedOpcode s.pc s.opcodeByte)

/-! ### The flags register -/

/-- FL reads as three bits (R28). -/
theorem State.readFl_lt (s : State) : s.readFl.toNat < 8 := by
  rw [State.readFl, BitVec.toNat_and]
  exact Nat.lt_succ_of_le Nat.and_le_right

/-- Settles O47: the read mask, and the three orders that CMP's comparison tells apart. -/
theorem flReadsThreeBits : Obligations.FlReadsThreeBits := by
  refine ⟨State.readFl_lt, fun a b s => ⟨_, rfl, ?_⟩⟩
  rcases compareFlags_cases (s.readReg a) (s.readReg b) with ⟨hord, e⟩ | ⟨hord, e⟩ | ⟨hord, e⟩
  all_goals
    simp [State.readFl, State.advance_eq, e]
    omega

/-- Settles O48: the second case of `step_fl_cases`. -/
theorem onlyCmpChangesFl : Obligations.OnlyCmpChangesFl :=
  fun _ _ h hne => (step_fl_cases h).resolve_left hne

/-- Applying a function to either outcome of a stack test. -/
theorem mapNext_ite (f : State → State) (b : Bool) (u v : State) :
    mapNext f (if b then .next u else .next v) = if b then .next (f u) else .next (f v) := by
  cases b <;> rfl

/-- An instruction other than CMP does the same with another FL, which JEQ and JNE must find equal in bit 0 (R29). -/
theorem exec_writeFl {i : Instr} (s : State) (f : Byte) (hcmp : ∀ a b, i ≠ .cmp a b)
    (hE : (∃ a, i = .jeq a ∨ i = .jne a) → (s.writeFl f).flagE = s.flagE) :
    exec i (s.writeFl f) = mapNext (fun t => { t with fl := f }) (exec i s) := by
  cases i with
  | cmp a b => exact absurd rfl (hcmp a b)
  | jeq a =>
    change Host.Outcome.next ((s.writeFl f).branch .jeq (s.writeFl f).flagE a) = _
    rw [hE ⟨a, .inl rfl⟩]
    rfl
  | jne a =>
    change Host.Outcome.next ((s.writeFl f).branch .jne (!(s.writeFl f).flagE) a) = _
    rw [hE ⟨a, .inr rfl⟩]
    rfl
  | push _ | pop _ | call _ | ret =>
    simp only [exec, execPush, execPop, execCall, execRet, mapNext_ite]
    rfl
  | _ => rfl

/-- E depends on FL's value modulo 2. -/
theorem State.flagE_writeFl {s : State} {f : Byte} (h : f.toNat % 2 = s.fl.toNat % 2) :
    (s.writeFl f).flagE = s.flagE := by
  simp [State.flagE_eq, BitVec.getLsbD, Nat.testBit_zero, h]

/-- Settles O49: CMP overwrites FL, and every other instruction by `exec_writeFl`. -/
theorem onlyEFlagIsRead : Obligations.OnlyEFlagIsRead :=
  fun _ s f => ⟨fun _ _ => rfl, fun hcmp hE => exec_writeFl s f hcmp fun hi => State.flagE_writeFl (hE hi)⟩

/-! ### Output -/

/-- The events an instruction emits: PRN's one, and none of any other (R35, R124). -/
def State.eventsOf (s : State) : Instr → List Byte
  | .prn a => [s.readReg a]
  | _ => []

/-- An operation other than PRN emits nothing, whatever its operands. -/
theorem State.eventsOf_instr {m : Mnemonic} (s : State) (o1 o2 : Byte) (h : m ≠ .prn) :
    s.eventsOf (m.instr o1 o2) = [] := by
  cases m with
  | prn => exact absurd rfl h
  | _ => rfl

/-- An instruction does the same after any earlier output, and adds its own events to it (R35). -/
theorem exec_withOut (i : Instr) (s : State) (before : List Byte) :
    exec i { s with out := before } = mapNext (fun t => { t with out := before ++ s.eventsOf i }) (exec i s) := by
  cases i with
  | prn _ => rfl
  | push _ | pop _ | call _ | ret =>
    simp only [State.eventsOf, List.append_nil, exec, execPush, execPop, execCall, execRet, mapNext_ite]
    rfl
  | _ =>
    simp only [State.eventsOf, List.append_nil]
    rfl

/-- An instruction's output is the old one and its own events: `exec_withOut` with the output the machine has. -/
theorem exec_out {i : Instr} {s t : State} (h : exec i s = .next t) : t.out = s.out ++ s.eventsOf i := by
  have hsame := exec_withOut i s s.out
  rw [h] at hsame
  exact congrArg State.out (Host.Outcome.next.inj hsame)

/-- Settles O52: the events are those of the operation looked up for the byte at pc, none where there is none. -/
theorem outputIsEmittedAndNeverRead : Obligations.OutputIsEmittedAndNeverRead := by
  intro s t hwf h
  have hrun := (step_cases h).1
  rcases step_cases_of_wf hwf h with ⟨m, hl, hi⟩ | ⟨hl, rfl⟩
  · have hop : s.config.opcodeMap.byteOf m = s.memRead s.pc := (Config.lookup_some hl).2
    refine ⟨_, exec_out hi, fun hprn => ?_, fun hprn => s.eventsOf_instr _ _ ?_, fun before => ?_⟩
    · obtain rfl : m = .prn := OpcodeMap.byteOf_inj hwf (hop.trans hprn)
      rfl
    · rintro rfl
      exact hprn hop.symm
    · rw [step_of_lookup (s := { s with out := before }) hwf hrun hl]
      exact (exec_withOut _ s before).trans (congrArg _ hi)
  · have hnotPrn := Config.lookup_none.mp hl .prn (s.config.recognizes_dispatched rfl)
    refine ⟨[], s.out.append_nil.symm, fun hprn => absurd hprn.symm hnotPrn, fun _ => rfl, fun before => ?_⟩
    rw [step_of_lookup_none (s := { s with out := before }) hrun hl, List.append_nil]
    rfl

end Sys2Proof.Machine
end

section
/-! PROOFS. The family of 20_memory.md: which cells an instruction and the fetch read and write, which steps change a
cell, and that a stored byte is seen by the next fetch. -/

namespace Sys2Proof.Machine

/-! ### Which cells are read and written -/

/-- An instruction other than the four of the stack does the same with another memory, and leaves that one alone
(R52). -/
theorem exec_withMem_of_notStack {i : Instr} (s : State) (m : Memory)
    (hstack : ∀ a, i ≠ .push a ∧ i ≠ .pop a ∧ i ≠ .call a) (hret : i ≠ .ret) :
    exec i { s with mem := m } = mapNext (fun t => { t with mem := m }) (exec i s) := by
  cases i with
  | push a => exact absurd rfl (hstack a).1
  | pop a => exact absurd rfl (hstack a).2.1
  | call a => exact absurd rfl (hstack a).2.2
  | ret => exact absurd rfl hret
  | _ => rfl

/-- Another memory that agrees in the cell at SP gives a pop the same byte (R160). -/
theorem State.loadTop_withMem {s : State} {m : Memory} (hm : m.read s.sp = s.memRead s.sp) :
    ({ s with mem := m } : State).loadTop = s.loadTop := hm

/-- POP does the same with another memory that agrees in the cell at SP, and leaves that one alone (R52, R165). -/
theorem execPop_withMem {s : State} {m : Memory} (a : Reg) (hm : m.read s.sp = s.memRead s.sp) :
    execPop a { s with mem := m } = mapNext (fun t => { t with mem := m }) (execPop a s) := by
  simp only [execPop, mapNext_ite, State.loadTop_withMem hm]
  rfl

/-- RET does the same with another memory that agrees in the cell at SP, and leaves that one alone (R52, R167). -/
theorem execRet_withMem {s : State} {m : Memory} (hm : m.read s.sp = s.memRead s.sp) :
    execRet { s with mem := m } = mapNext (fun t => { t with mem := m }) (execRet s) := by
  simp only [execRet, mapNext_ite, State.loadTop_withMem hm]
  rfl

/-- A cell stored below SP reads as stored (R160). -/
theorem State.memRead_pushAddr_storeTop (s : State) (v : Byte) : (s.decSp.storeTop v).memRead s.pushAddr = v := by
  have hsp : s.decSp.sp = s.pushAddr := s.sp_decSp
  rw [State.storeTop_eq, hsp, State.memRead_memWrite, if_pos rfl]

/-- Storing below SP in another memory writes there what it writes here (R160). -/
theorem State.storeTop_withMem (s : State) (m : Memory) (v : Byte) :
    ({ s with mem := m } : State).decSp.storeTop v =
      { s.decSp.storeTop v with mem := m.write s.pushAddr ((s.decSp.storeTop v).memRead s.pushAddr) } := by
  have hsp : ({ s with mem := m } : State).decSp.sp = s.pushAddr := State.sp_decSp _
  rw [State.memRead_pushAddr_storeTop, State.storeTop_eq, hsp]
  rfl

/-- PUSH and CALL, where they do not overflow, do the same with another memory and write the one cell below SP with the
same value (R52, R164, R166). -/
theorem exec_push_or_call_withMem {i : Instr} {s : State} (m : Memory) (hi : ∃ a, i = .push a ∨ i = .call a)
    (hroom : s.pushOverflows = false) :
    exec i { s with mem := m } =
      mapNext (fun t => { t with mem := m.write s.pushAddr (t.memRead s.pushAddr) }) (exec i s) := by
  have hroom' : ({ s with mem := m } : State).pushOverflows = false := hroom
  obtain ⟨a, rfl | rfl⟩ := hi
  · rw [exec_push_stores a hroom, exec_push_stores a hroom', State.storeTop_withMem]
    rfl
  · rw [exec_call_calls a hroom, exec_call_calls a hroom', State.storeTop_withMem]
    rfl

/-- A fetch reads the opcode's cell and the cells of the operand bytes its count field asks for, two at most (R75,
R101). -/
theorem State.fetchBytes_withMem {s : State} {m : Memory} (hop : m.read s.pc = s.memRead s.pc)
    (h1 : 1 ≤ (opShape (s.memRead s.pc)).operandCount → m.read (s.pc + 1) = s.memRead (s.pc + 1))
    (h2 : 2 ≤ (opShape (s.memRead s.pc)).operandCount → m.read (s.pc + 2) = s.memRead (s.pc + 2)) :
    ({ s with mem := m } : State).fetchBytes = s.fetchBytes := by
  have hopcode : ({ s with mem := m } : State).opcodeByte = s.opcodeByte := hop
  simp only [State.fetchBytes, hopcode]
  congr 2
  · split_ifs with hn
    · exact congrArg (fun b => [b]) (h1 hn)
    · rfl
  · split_ifs with hn
    · exact congrArg (fun b => [b]) (h2 hn)
    · rfl

/-- Settles O50: one lemma for each group of instructions, and the fetch. -/
theorem memoryAccessesOfEachInstruction : Obligations.MemoryAccessesOfEachInstruction := by
  refine ⟨fun _ => exec_withMem_of_notStack, fun i s m hi hm => ?_, fun _ _ m hi hroom => ?_,
    fun _ _ => State.fetchBytes_withMem⟩
  · obtain rfl | ⟨a, rfl⟩ := hi
    · exact execRet_withMem hm
    · exact execPop_withMem a hm
  · exact exec_push_or_call_withMem m hi (State.pushOverflows_false hroom)

/-! ### Which steps change a cell -/

/-- What a step does to memory: nothing, or the one write below SP of the PUSH or CALL at pc (R52, R58). -/
theorem step_mem_cases {s t : State} (h : step s = .next t) :
    t.mem = s.mem ∨ ((s.opcodeByte = s.config.opcodeMap.push ∨ s.opcodeByte = s.config.opcodeMap.call) ∧
      ∃ v, t.mem = s.mem.write s.pushAddr v) := by
  obtain ⟨-, ⟨i, rest, hd, hi⟩ | ⟨e, -, rfl⟩⟩ := step_cases h
  · have hbyte : s.opcodeOf i.mnemonic = s.opcodeByte := (State.fetchDecode_ok hd).2
    refine (exec_mem_cases hi).imp_right fun ⟨hm, hwrite⟩ => ⟨?_, hwrite⟩
    rcases hm with hm | hm
    · exact .inl (by rw [← hbyte, hm]; rfl)
    · exact .inr (by rw [← hbyte, hm]; rfl)
  · exact .inl rfl

/-- Settles O51: a write changes no other cell than its own. -/
theorem onlyStackWritesMemory : Obligations.OnlyStackWritesMemory := by
  intro s t a h hne
  rcases step_mem_cases h with heq | ⟨hop, v, heq⟩
  · exact absurd (State.memRead_congr heq a) hne
  · refine ⟨by_contra fun ha => hne ?_, hop⟩
    rw [State.memRead, heq, Memory.read_write_other _ _ ha]
    rfl

/-! ### A stored byte is fetched -/

/-- What PUSH reads after lowering SP: the lowered SP for R7, every other register as before (R164, D13). -/
theorem State.readReg_decSp (s : State) (r : Reg) :
    s.decSp.readReg r = if r = spIndex then s.pushAddr else s.readReg r :=
  s.readReg_writeReg spIndex r s.pushAddr

/-- A register byte names R7 where its low three bits are all set (R79). -/
theorem regOf_eq_spIndex_iff (b : Byte) : regOf b = spIndex ↔ b.toNat % 8 = 7 := Fin.ext_iff

/-- A RUNNING machine at PUSH's byte pushes the register its operand byte names, where it does not overflow (R58,
R164). -/
theorem step_push {s : State} (hwf : s.config.wf = true) (hrun : s.run = .running)
    (hop : s.opcodeByte = s.config.opcodeMap.push) (hroom : s.pushOverflows = false) :
    step s = .next ((s.decSp.storeTop (s.decSp.readReg (regOf s.operandByte1))).advance .push) := by
  have hl : s.config.lookup s.opcodeByte = some .push := by
    rw [hop]
    exact Config.lookup_byteOf hwf (s.config.recognizes_dispatched (m := .push) rfl)
  rw [step_of_lookup hwf hrun hl]
  exact exec_push_stores _ hroom

/-- Settles O46: the step of `step_push`, whose advance leaves pc at the next opcode's address. -/
theorem pushedByteIsFetchedNext : Obligations.PushedByteIsFetchedNext := by
  intro s hrun hwf hop hroom
  refine ⟨_, step_push hwf hrun hop (State.pushOverflows_false hroom), s.nextPc_toNat .push, ?_, fun hnext => ?_⟩
  · rw [State.advance_eq, State.memRead_jump, State.memRead_pushAddr_storeTop, State.readReg_decSp]
    simp only [regOf_eq_spIndex_iff]
    rfl
  · rw [hnext]
    rfl

end Sys2Proof.Machine
end

section
/-! PROOFS. The family of 30_encoding.md: the opcode byte's fields, decode and encode in both directions, register
bytes, the bytes no operation has, and the step that runs an encoded instruction. -/

namespace Sys2Proof

/-! ### The opcode byte's fields (R72, R73) -/

/-- The count field is the opcode's top two bits (R72). -/
theorem opShape_operandCount (op : Byte) : (opShape op).operandCount = op.toNat / 64 := by
  have hlt : op.toNat / 64 < 4 := Nat.div_lt_of_lt_mul op.isLt
  simp [opShape, BitVec.extractLsb_toNat, Nat.shiftRight_eq_div_pow, Nat.mod_eq_of_lt hlt]

/-- The sets_pc flag is bit 4 of the opcode (R72). -/
theorem opShape_setsPc_iff (op : Byte) : (opShape op).setsPc = true ↔ op.toNat / 16 % 2 = 1 := by
  simp [opShape, BitVec.getLsbD, Nat.testBit_eq_decide_div_mod_eq]

/-- Settles O22: the two fields of any byte. -/
theorem decoderReadsCountAndSetsPc : Obligations.DecoderReadsCountAndSetsPc :=
  fun op => ⟨opShape_operandCount op, opShape_setsPc_iff op⟩

/-- Under a map that keeps R77 a recognized opcode's count field is its operation's count. -/
theorem Config.operandCount_of_lookup {c : Config} (hc : c.wf = true) {op : Byte} {m : Mnemonic}
    (hl : c.lookup op = some m) : (opShape op).operandCount = m.operandCount := by
  rw [← (Config.lookup_some hl).2]
  exact ((OpcodeMap.wf_iff _).mp hc).1 m

/-- Settles O28: a recognized byte's count field is an operation's count, and none is 3. -/
theorem countThreeIsNeverRecognized : Obligations.CountThreeIsNeverRecognized := by
  intro c op tail hc hop
  cases hl : c.lookup op with
  | none => exact decodeBytes_unrecognized hl
  | some m =>
    have hcount : op.toNat / 64 = m.operandCount := by
      rw [← opShape_operandCount, Config.operandCount_of_lookup hc hl]
    have htwo := m.operandCount_le_two
    omega

/-! ### From an instruction to its bytes and back (R74) -/

/-- Operand bytes that agree with an instruction's own, as far as its operation has any, make that instruction. -/
theorem Instr.instr_of_operandBytes (i : Instr) {o1 o2 : Byte}
    (h1 : 0 < i.operandBytes.length → o1 = i.operandBytes.getD 0 0)
    (h2 : 1 < i.operandBytes.length → o2 = i.operandBytes.getD 1 0) : i.mnemonic.instr o1 o2 = i := by
  cases i <;> simp_all [Instr.operandBytes, Instr.mnemonic, Mnemonic.instr]

/-- Settles O25: the lookup finds the encoded operation, whose operands are the bytes right after the opcode. -/
theorem decodeOfEncode : Obligations.DecodeOfEncode := by
  intro c i rest hc hi
  have hlen : i.mnemonic.operandCount ≤ (i.operandBytes ++ rest).length := by simp
  rw [encode, List.cons_append, decodeBytes_byteOf hc hi hlen,
    i.instr_of_operandBytes (List.getD_append _ _ _ _) (List.getD_append _ _ _ _),
    List.drop_left' i.operandBytes_length]

/-- Settles O23: each word is the encoding of its instruction under the default parameters. -/
theorem defaultWordsDecode : Obligations.DefaultWordsDecode := by
  have hdec (i : Instr) : decodeBytes .default (encode .default i ++ []) = .ok (i, []) :=
    decodeOfEncode .default i [] (by decide) (Config.recognizes_full rfl i.mnemonic)
  exact ⟨hdec .hlt, hdec (.ldi 3 0x2A), hdec (.cmp 0 2), hdec (.call 1), hdec (.jeq 3)⟩

/-! ### Decoding after a looked-up opcode (R74, R80) -/

/-- Decoding after a recognized opcode with as many operand bytes as it asks for. -/
theorem decodeBytes_of_lookup {c : Config} {op : Byte} {m : Mnemonic} (hl : c.lookup op = some m) {tail : List Byte}
    (hlen : m.operandCount ≤ tail.length) :
    decodeBytes c (op :: tail) = .ok (m.instr (tail.getD 0 0) (tail.getD 1 0), tail.drop m.operandCount) := by
  simp [decodeBytes, hl, Nat.not_lt.mpr hlen]

/-- A recognized opcode with too few bytes after it is refused by name. -/
theorem decodeBytes_truncated {c : Config} {op : Byte} {m : Mnemonic} (hl : c.lookup op = some m) {tail : List Byte}
    (hlen : tail.length < m.operandCount) : decodeBytes c (op :: tail) = .error (.truncated m) := by
  simp [decodeBytes, hl, hlen]

/-- Tails of one length that make the same instruction and leave the same bytes decode alike after an opcode. -/
theorem decodeBytes_congr_tail {c : Config} {op : Byte} {t t' : List Byte} (hlen : t.length = t'.length)
    (h : ∀ m, c.lookup op = some m → m.instr (t.getD 0 0) (t.getD 1 0) = m.instr (t'.getD 0 0) (t'.getD 1 0) ∧
      t.drop m.operandCount = t'.drop m.operandCount) :
    decodeBytes c (op :: t) = decodeBytes c (op :: t') := by
  cases hl : c.lookup op with
  | none => rw [decodeBytes_unrecognized hl, decodeBytes_unrecognized hl]
  | some m =>
    obtain ⟨hinstr, hdrop⟩ := h m hl
    rcases Nat.lt_or_ge t.length m.operandCount with hlt | hge
    · rw [decodeBytes_truncated hl hlt, decodeBytes_truncated hl (hlen ▸ hlt)]
    · rw [decodeBytes_of_lookup hl hge, decodeBytes_of_lookup hl (hlen ▸ hge), hinstr, hdrop]

/-! ### Register bytes (R79) -/

/-- A register byte names the register of its low three bits. -/
theorem regOf_val (b : Byte) : (regOf b).val = b.toNat % 8 := rfl

/-- Bytes equal modulo 8 name one register. -/
theorem regOf_congr {b b' : Byte} (h : b.toNat % 8 = b'.toNat % 8) : regOf b = regOf b' := Fin.ext h

/-- The byte that names a byte's register agrees with it modulo 8. -/
theorem regByte_regOf_toNat_mod (b : Byte) : (regByte (regOf b)).toNat % 8 = b.toNat % 8 := by
  simp [regByte, regOf_val]

/-- The first operand byte counts modulo 8, in every format. -/
theorem Mnemonic.instr_congr_left (m : Mnemonic) {o1 o1' : Byte} (o2 : Byte) (h : o1.toNat % 8 = o1'.toNat % 8) :
    m.instr o1 o2 = m.instr o1' o2 := by
  cases m <;> simp only [Mnemonic.instr, regOf_congr h]

/-- The second operand byte counts modulo 8 where it is a register operand. -/
theorem Mnemonic.instr_congr_right {m : Mnemonic} (hm : m = .add ∨ m = .mul ∨ m = .cmp) (o1 : Byte) {o2 o2' : Byte}
    (h : o2.toNat % 8 = o2'.toNat % 8) : m.instr o1 o2 = m.instr o1 o2' := by
  rcases hm with rfl | rfl | rfl <;> simp only [Mnemonic.instr, regOf_congr h]

/-- The operations with two register operands have two operand bytes. -/
theorem Mnemonic.operandCount_of_two_registers {m : Mnemonic} (hm : m = .add ∨ m = .mul ∨ m = .cmp) :
    m.operandCount = 2 := by
  rcases hm with rfl | rfl | rfl <;> rfl

/-- Settles O29: a register byte is used only through `regOf`, and no operation asks for more than two. -/
theorem registerByteHighBitsIgnored : Obligations.RegisterByteHighBitsIgnored := by
  refine ⟨regOf_val, fun c op o1 o1' tail h hcount => ?_, fun c op o1 o2 o2' tail h hop => ?_,
    fun c op o1 o2 tail k hl => ?_⟩
  · refine decodeBytes_congr_tail rfl fun m hl => ⟨m.instr_congr_left _ h, ?_⟩
    obtain ⟨n, hn⟩ := Nat.exists_eq_succ_of_ne_zero (hcount m hl)
    rw [hn, List.drop_succ_cons, List.drop_succ_cons]
  · refine decodeBytes_congr_tail rfl fun m hl => ?_
    have hm : m = .add ∨ m = .mul ∨ m = .cmp := by simpa [hl] using hop
    refine ⟨Mnemonic.instr_congr_right hm _ h, ?_⟩
    rw [Mnemonic.operandCount_of_two_registers hm]
    rfl
  · have hlen : k.operandCount ≤ (o1 :: o2 :: tail).length := k.operandCount_le_two.trans (by simp)
    exact ⟨_, _, decodeBytes_of_lookup hl hlen, k.instr_mnemonic o1 o2⟩

/-! ### From bytes to an instruction and back (R70, R78, R79) -/

/-- Settles O27: the operand bytes are as many as the operation's count, which is the count field. -/
theorem lengthFromOpcodeByte : Obligations.LengthFromOpcodeByte := by
  intro c op tail rest i hc h
  obtain ⟨_, _, ⟨⟩, hl, hlen, -, rfl⟩ := decodeBytes_ok h
  rw [Config.operandCount_of_lookup hc hl]
  exact ⟨tail.take i.mnemonic.operandCount, (List.take_append_drop _ _).symm, List.length_take_of_le hlen,
    i.mnemonic.operandCount_le_two⟩

/-- At most two operand bytes taken from a tail are its first two, as many as are taken. -/
theorem take_eq_take_operands {n : Nat} (hn : n ≤ 2) {tail : List Byte} (hlen : n ≤ tail.length) :
    tail.take n = [tail.getD 0 0, tail.getD 1 0].take n := by
  match n, tail, hn, hlen with
  | 0, _, _, _ => rfl
  | 1, _ :: _, _, _ => rfl
  | 2, _ :: _ :: _, _, _ => rfl

/-- The operand bytes of the instruction made of two bytes are those bytes modulo 8, as many as its operation has. -/
theorem Mnemonic.operandBytes_instr_mod (m : Mnemonic) (o1 o2 : Byte) :
    (m.instr o1 o2).operandBytes.map (·.toNat % 8) = ([o1, o2].take m.operandCount).map (·.toNat % 8) := by
  cases m <;> simp [Mnemonic.instr, Instr.operandBytes, Mnemonic.operandCount, regByte_regOf_toNat_mod]

/-- The encoding of a decoded instruction agrees modulo 8 with the bytes it was decoded from: the opcode, then the
operand bytes taken. -/
theorem encode_mod_eq {c : Config} {op : Byte} {tail : List Byte} {i : Instr} (hl : c.lookup op = some i.mnemonic)
    (hlen : i.mnemonic.operandCount ≤ tail.length) (hi : i = i.mnemonic.instr (tail.getD 0 0) (tail.getD 1 0)) :
    (encode c i).map (·.toNat % 8) = (op :: tail.take i.mnemonic.operandCount).map (·.toNat % 8) := by
  rw [encode, (Config.lookup_some hl).2, take_eq_take_operands i.mnemonic.operandCount_le_two hlen, List.map_cons,
    List.map_cons, ← Mnemonic.operandBytes_instr_mod, ← hi]

/-- Byte sequences equal modulo 8 agree modulo 8 at every index, 0x00 standing past the end. -/
theorem getD_mod_congr {bs bs' : List Byte} (h : bs.map (·.toNat % 8) = bs'.map (·.toNat % 8)) (k : Nat) :
    (bs.getD k 0).toNat % 8 = (bs'.getD k 0).toNat % 8 := by
  have hk := congrArg (List.getD · k ((0 : Byte).toNat % 8)) h
  simpa only [List.getD_map] using hk

/-- Settles O26: the bytes taken are the opcode and its operand bytes, which `encode_mod_eq` compares. -/
theorem decodedBytesAreTheEncoding : Obligations.DecodedBytesAreTheEncoding := by
  intro c bs rest i _ h
  obtain ⟨op, tail, rfl, hl, hlen, hi, rfl⟩ := decodeBytes_ok h
  obtain ⟨hrec, hbyte⟩ := Config.lookup_some hl
  have hmod := encode_mod_eq hl hlen hi
  refine ⟨hrec, op :: tail.take i.mnemonic.operandCount, by simp, ?_, hbyte.symm, getD_mod_congr hmod.symm,
    fun a imm hldi => ?_⟩
  · simpa only [List.length_map] using (congrArg List.length hmod).symm
  · subst hldi
    obtain ⟨-, himm⟩ := Instr.ldi.inj hi
    rw [take_eq_take_operands (Mnemonic.operandCount_le_two _) hlen]
    exact himm.symm

/-! ### The bytes no operation has (R80) -/

/-- The recognized bytes are the opcodes of the recognized operations (R76, R80). -/
theorem Config.lookup_isSome_iff {c : Config} {op : Byte} :
    (c.lookup op).isSome = true ↔ ∃ m, c.recognizes m = true ∧ c.opcodeMap.byteOf m = op := by
  rw [Option.isSome_iff_ne_none, ne_eq, Config.lookup_none]
  push Not
  rfl

/-- Under a map that keeps R77 the recognized bytes are as many as the recognized operations. -/
theorem Config.length_recognizedBytes {c : Config} (hc : c.wf = true) :
    ((List.range 256).filter fun n => (c.lookup (BitVec.ofNat 8 n)).isSome).length =
      (Mnemonic.all.filter c.recognizes).length := by
  have hinj : Function.Injective fun m => (c.opcodeMap.byteOf m).toNat :=
    fun _ _ e => OpcodeMap.byteOf_inj hc (BitVec.eq_of_toNat_eq e)
  have hall : Mnemonic.all.Nodup := by decide
  have hperm : ((List.range 256).filter fun n => (c.lookup (BitVec.ofNat 8 n)).isSome).Perm
      ((Mnemonic.all.filter c.recognizes).map fun m => (c.opcodeMap.byteOf m).toNat) := by
    refine (List.perm_ext_iff_of_nodup (List.nodup_range.filter _) ((hall.filter _).map hinj)).mpr fun n => ?_
    simp only [List.mem_filter, List.mem_range, List.mem_map, Config.lookup_isSome_iff, Mnemonic.mem_all, true_and]
    constructor
    · rintro ⟨hn, m, hm, hbyte⟩
      exact ⟨m, hm, by rw [hbyte, BitVec.toNat_ofNat, Nat.mod_eq_of_lt hn]⟩
    · rintro ⟨m, hm, rfl⟩
      exact ⟨BitVec.isLt _, m, hm, by simp⟩
  rw [hperm.length_eq, List.length_map]

/-- Under a map that keeps R77 every byte is either unrecognized or the opcode of one recognized operation (R80). -/
theorem Config.length_unrecognizedBytes {c : Config} (hc : c.wf = true) :
    ((List.range 256).filter fun n => (c.lookup (BitVec.ofNat 8 n)).isNone).length =
      256 - (Mnemonic.all.filter c.recognizes).length := by
  have hsplit := (List.range 256).length_eq_length_filter_add fun n => (c.lookup (BitVec.ofNat 8 n)).isSome
  rw [Config.length_recognizedBytes hc, List.length_range] at hsplit
  simp only [Option.not_isSome] at hsplit
  omega

/-- Settles O24: thirteen operations are recognized under the full set and nine under the dispatched set. -/
theorem unrecognizedByteCounts : Obligations.UnrecognizedByteCounts :=
  ⟨Config.length_unrecognizedBytes (by decide),
    Config.length_unrecognizedBytes (c := { Config.default with declaredSet := .dispatched }) (by decide), by decide⟩

end Sys2Proof

namespace Sys2Proof.Machine

/-! ### The step at an encoded instruction (R54, R75) -/

/-- Settles O36: the cell at pc is looked up, and the cells after it are the instruction's operand bytes. -/
theorem stepRunsEncodedInstruction : Obligations.StepRunsEncodedInstruction := by
  intro s i hrun hwf hi hcells
  have hoperand (k : Nat) (hk : k < i.operandBytes.length) :
      s.memRead (s.pc + BitVec.ofNat 8 (k + 1)) = i.operandBytes.getD k 0 :=
    hcells (k + 1) (Nat.succ_lt_succ hk)
  have hop : s.opcodeByte = s.config.opcodeMap.byteOf i.mnemonic := by
    have hcell := hcells 0 (Nat.succ_pos _)
    rwa [BitVec.add_zero] at hcell
  have hl : s.config.lookup s.opcodeByte = some i.mnemonic := by
    rw [hop]
    exact Config.lookup_byteOf hwf hi
  have hinstr : i.mnemonic.instr s.operandByte1 s.operandByte2 = i :=
    i.instr_of_operandBytes (hoperand 0) (hoperand 1)
  rw [step_of_lookup hwf hrun hl, hinstr]

end Sys2Proof.Machine
end

section
/-! PROOFS. The family of 40_cycle.md: the cycle while RUNNING, the fault of an unrecognized opcode, the terminal
states, and which steps halt. -/

namespace Sys2Proof

/-- HLT is the one instruction of its operation. -/
theorem Instr.eq_hlt_iff (i : Instr) : i = .hlt ↔ i.mnemonic = .hlt := by
  cases i <;> simp [Instr.mnemonic]

end Sys2Proof

namespace Sys2Proof.Machine

variable {s t : State}

/-! ### The cycle while RUNNING (R101, R102, R107) -/

/-- Settles O35: the RUNNING arm of the cycle, whose fetch decodes. -/
theorem stepRunsDecodedInstruction : Obligations.StepRunsDecodedInstruction := by
  intro s i rest hrun hdecode
  have hd : s.fetchDecode = .ok (i, rest) := hdecode
  unfold step
  rw [hrun, hd]

/-- Settles O39: every instruction has a next state, and so does the fault of a fetch that decodes to none. -/
theorem runningMachineAlwaysSteps : Obligations.RunningMachineAlwaysSteps :=
  fun _ => step_next_of_running

/-! ### The terminal states (R42, R100) -/

/-- Only a RUNNING machine has a next state (R100). -/
theorem step_ne_next (hs : s.run ≠ .running) (u : State) : step s ≠ .next u :=
  fun h => hs (step_cases h).1

/-- A run from a terminal state stays there (R42). -/
theorem Reaches.eq_of_not_running (h : Reaches s t) (hs : s.run ≠ .running) : t = s := by
  induction h with
  | refl => rfl
  | tail _ hstep ih =>
    rw [ih] at hstep
    exact absurd hstep (step_ne_next hs _)

/-- Settles O38: no step, and so no run of one step or more. -/
theorem terminalStatesAreFinal : Obligations.TerminalStatesAreFinal :=
  fun _ _ hs => ⟨step_ne_next hs, fun h => h.eq_of_not_running hs⟩

/-- Settles O37: the lookup finds nothing, and the faulted state is terminal. -/
theorem unrecognizedOpcodeFaults : Obligations.UnrecognizedOpcodeFaults := by
  intro s hrun hunrecognized
  have hl : s.config.lookup s.opcodeByte = none := Config.lookup_none.mpr hunrecognized
  exact ⟨_, step_of_lookup_none hrun hl, s.raiseFault_eq _ _, rfl, rfl, step_ne_next (by simp)⟩

/-! ### Which steps halt (R32, R109, R234) -/

/-- From a RUNNING machine an instruction leads to HALTED exactly where it is HLT (R32, R120). -/
theorem exec_halts_iff {i : Instr} (hrun : s.run = .running) (h : exec i s = .next t) :
    t.run = .halted ↔ i = .hlt := by
  rcases exec_run_cases h with ⟨hkeep, hne⟩ | ⟨rfl, hhalt⟩ | ⟨rfl, -, hm⟩ | ⟨rfl, -, hm⟩
  · simp [hkeep, hrun, hne]
  · simp [hhalt]
  all_goals
    rw [Instr.eq_hlt_iff]
    rcases hm with hm | hm <;> simp [hm]

/-- Settles O43: a well-formed map gives HLT's byte to HLT alone, and that byte is always recognized. -/
theorem onlyHltHalts : Obligations.OnlyHltHalts := by
  intro s t hwf h
  rcases step_cases_of_wf hwf h with ⟨m, hl, hi⟩ | ⟨hl, rfl⟩
  · have hop : s.config.opcodeMap.byteOf m = s.memRead s.pc := (Config.lookup_some hl).2
    rw [exec_halts_iff (step_cases h).1 hi, Instr.eq_hlt_iff, Mnemonic.instr_mnemonic, ← hop]
    exact ⟨fun hm => congrArg _ hm, fun hbyte => OpcodeMap.byteOf_inj hwf hbyte⟩
  · have hne : s.config.opcodeMap.hlt ≠ s.memRead s.pc :=
      Config.lookup_none.mp hl .hlt (s.config.recognizes_dispatched rfl)
    simp [hne.symm]

end Sys2Proof.Machine
end

section
/-! PROOFS. The family of 41_control_io.md: HLT, LDI and PRN, the pair LDI and PRN, and the rendering of an output
event. -/

namespace Sys2Proof.Machine

/-! ### The engine's advance (R104) -/

section
variable (s : State) (m : Mnemonic)

/-- The advance leaves pc past the operation's bytes. -/
theorem State.advance_pc_toNat : (s.advance m).pc.toNat = (s.pc.toNat + m.operandCount + 1) % 256 :=
  s.nextPc_toNat m

@[simp] theorem State.readReg_advance (r : Reg) : (s.advance m).readReg r = s.readReg r := rfl
@[simp] theorem State.memRead_advance (a : Addr) : (s.advance m).memRead a = s.memRead a := rfl
@[simp] theorem State.advance_fl : (s.advance m).fl = s.fl := rfl
@[simp] theorem State.advance_run : (s.advance m).run = s.run := rfl
@[simp] theorem State.advance_out : (s.advance m).out = s.out := rfl
@[simp] theorem State.advance_config : (s.advance m).config = s.config := rfl

end

/-- A register write leaves every other register alone (R24). -/
theorem State.sameRegsExcept_writeReg (s : State) (r : Reg) (v : Byte) : SameRegsExcept [r] s (s.writeReg r v) := by
  intro q hq
  rw [State.readReg_writeReg, if_neg (List.ne_of_not_mem_cons hq)]

/-! ### HLT, LDI and PRN (R120, R122, R124) -/

/-- A HALTED machine's exit status is 0 (R37). -/
theorem State.exitStatus_of_halted {s : State} (h : s.run = .halted) : s.exitStatus = some 0 := by
  simp only [State.exitStatus, h]

/-- A step from a HALTED machine answers the fault of that name (R100, D18). -/
theorem step_of_halted {s : State} (h : s.run = .halted) : step s = .fault .noStepFromHalted := by
  unfold step
  rw [h]

/-- HLT's next state: halted, then advanced (R120). -/
theorem exec_hlt (s : State) : exec .hlt s = .next (s.halt.advance .hlt) := rfl

/-- LDI's next state: the immediate written, then advanced (R122). -/
theorem exec_ldi (a : Reg) (imm : Byte) (s : State) :
    exec (.ldi a imm) s = .next ((s.writeReg a imm).advance .ldi) := rfl

/-- PRN's next state: the register's value emitted, then advanced (R124). -/
theorem exec_prn (a : Reg) (s : State) : exec (.prn a) s = .next ((s.emit (s.readReg a)).advance .prn) := rfl

/-- Settles O1: the state of `exec_hlt`, which is HALTED and so has exit status 0 and no step. -/
theorem hltHaltsAndAdvances : Obligations.HltHaltsAndAdvances := by
  refine ⟨fun c hc _ => decodeBytes_byteOf hc (m := .hlt) (c.recognizes_dispatched rfl) (Nat.zero_le _), fun s => ?_⟩
  have hhalted : (s.halt.advance .hlt).run = .halted := s.halt.advance_run .hlt
  refine ⟨_, exec_hlt s, hhalted, State.exitStatus_of_halted hhalted, step_of_halted hhalted,
    s.halt.advance_pc_toNat .hlt, ?_⟩
  simp [SameRegsExcept, SameMemExcept]

/-- Settles O2: the state of `exec_ldi`, where the register written gives the immediate and every other is as before. -/
theorem ldiLoadsImmediate : Obligations.LdiLoadsImmediate := by
  refine ⟨fun c hc _ _ _ => decodeBytes_byteOf hc (m := .ldi) (c.recognizes_dispatched rfl) (Nat.le_add_left _ _),
    fun a imm s => ⟨_, exec_ldi a imm s, ?_, s.sameRegsExcept_writeReg a imm, ?_,
      (s.writeReg a imm).advance_pc_toNat .ldi, ?_⟩⟩
  all_goals simp [SameMemExcept]

/-- Settles O3: the state of `exec_prn`, whose one event is the register's value. -/
theorem prnEmitsRegister : Obligations.PrnEmitsRegister := by
  refine ⟨fun c hc _ _ => decodeBytes_byteOf hc (m := .prn) (c.recognizes_dispatched rfl) (Nat.le_add_left _ _),
    fun a s => ⟨_, exec_prn a s, ?_, ?_, ?_, (s.emit (s.readReg a)).advance_pc_toNat .prn, ?_⟩⟩
  all_goals simp [SameRegsExcept, SameMemExcept]

/-- Settles O21: PRN emits the register that LDI has just loaded, and the two advances add up. -/
theorem ldiThenPrnEmitsImmediate : Obligations.LdiThenPrnEmitsImmediate := by
  intro n v s
  obtain ⟨t, ht, hreg, -, -, hpct, -, -, hout, -⟩ := ldiLoadsImmediate.2 n v s
  obtain ⟨u, hu, hemit, -, -, hpcu, -⟩ := prnEmitsRegister.2 n t
  exact ⟨t, u, ht, hu, by rw [hemit, hreg, hout], by omega⟩

/-! ### The rendering of an output event (R35, R124) -/

/-- A byte has one, two or three decimal digits, by its size. -/
theorem decimalDigits_cases (v : Byte) :
    (v.toNat < 10 ∧ decimalDigits v = [v.toNat]) ∨
      (10 ≤ v.toNat ∧ v.toNat < 100 ∧ decimalDigits v = [v.toNat / 10, v.toNat % 10]) ∨
      (100 ≤ v.toNat ∧ decimalDigits v = [v.toNat / 100, v.toNat / 10 % 10, v.toNat % 10]) := by
  unfold decimalDigits
  by_cases h10 : v.toNat < 10
  · exact .inl ⟨h10, if_pos h10⟩
  · by_cases h100 : v.toNat < 100
    · exact .inr (.inl ⟨Nat.not_lt.mp h10, h100, by simp [h10, h100]⟩)
    · exact .inr (.inr ⟨Nat.not_lt.mp h100, by simp [h10, h100]⟩)

/-- Settles O34: one case for each number of digits. -/
theorem outputIsRenderedInDecimal : Obligations.OutputIsRenderedInDecimal := by
  intro v
  have hbyte : v.toNat < 256 := v.isLt
  rcases decimalDigits_cases v with ⟨hlt, hdigits⟩ | ⟨hge, hlt, hdigits⟩ | ⟨hge, hdigits⟩
  · exact ⟨by simp [hdigits], by simpa [hdigits] using hlt, .inl (by simp [hdigits]), rfl⟩
  all_goals
    have hlead : (decimalDigits v).headD 0 ≠ 0 := by
      simp only [hdigits, List.headD_cons]
      omega
    refine ⟨?_, ?_, .inr hlead, rfl⟩
    · simp only [hdigits, List.foldl_cons, List.foldl_nil]
      omega
    · simp only [hdigits, List.forall_mem_cons, List.not_mem_nil, false_imp_iff, implies_true, and_true]
      omega

end Sys2Proof.Machine
end

section
/-! PROOFS. The family of 42_alu.md: ADD, MUL and CMP. -/

namespace Sys2Proof.Machine

/-! ### Sum, product and comparison as numbers (R141, R146) -/

/-- The sum is exact modulo 256 (R142). -/
theorem aluAdd_toNat (x y : Byte) : (aluAdd x y).toNat = (x.toNat + y.toNat) % 256 := BitVec.toNat_ofNat _ 8

/-- The product is exact modulo 256 (R144). -/
theorem aluMul_toNat (x y : Byte) : (aluMul x y).toNat = (x.toNat * y.toNat) % 256 := BitVec.toNat_ofNat _ 8

/-- The comparison tests its operands as unsigned numbers, equality included (R146, R147). -/
theorem compareFlags_eq_ite (x y : Byte) :
    compareFlags x y = if x.toNat = y.toNat then 0x01 else if y.toNat < x.toNat then 0x02 else 0x04 := by
  rcases compareFlags_cases x y with ⟨heq, e⟩ | ⟨hgt, e⟩ | ⟨hlt, e⟩
  · rw [e, if_pos heq]
  · rw [e, if_neg hgt.ne', if_pos hgt]
  · rw [e, if_neg hlt.ne, if_neg hlt.asymm]

/-! ### The shape ADD and MUL share (R140) -/

section
variable (s : State) (f : Byte → Byte → Byte) (a b : Reg)

/-- The first operand's register takes the result of both old values, also where the operands are one register. -/
theorem State.readReg_binary : (s.binary f a b).readReg a = f (s.readReg a) (s.readReg b) := by
  rw [State.binary, State.readReg_writeReg, if_pos rfl]

/-- What ADD and MUL leave alone: every register but the first operand's, memory, FL, the run state, the output and the
parameters; pc passes the three bytes (R104, R141). -/
theorem State.binary_advance_frame {m : Mnemonic} (hm : m.operandCount = 2) :
    let t := (s.binary f a b).advance m
    SameRegsExcept [a] s t ∧ SameMemExcept [] s t ∧ t.pc.toNat = (s.pc.toNat + 3) % 256 ∧ t.fl = s.fl ∧
      t.run = s.run ∧ t.out = s.out ∧ t.config = s.config := by
  have hpc : ((s.binary f a b).advance m).pc.toNat = (s.pc.toNat + 3) % 256 := by
    rw [State.advance_pc_toNat, hm]
    rfl
  exact ⟨s.sameRegsExcept_writeReg a _, fun _ _ => rfl, hpc, rfl, rfl, rfl, rfl⟩

end

/-! ### ADD, MUL and CMP (R142, R144, R146) -/

/-- ADD's next state: the sum written, then advanced (R142). -/
theorem exec_add (a b : Reg) (s : State) : exec (.add a b) s = .next ((s.binary aluAdd a b).advance .add) := rfl

/-- MUL's next state: the product written, then advanced (R144). -/
theorem exec_mul (a b : Reg) (s : State) : exec (.mul a b) s = .next ((s.binary aluMul a b).advance .mul) := rfl

/-- CMP's next state: the order of the two values in FL, then advanced (R146). -/
theorem exec_cmp (a b : Reg) (s : State) :
    exec (.cmp a b) s = .next ((s.writeFl (compareFlags (s.readReg a) (s.readReg b))).advance .cmp) := rfl

/-- Settles O4: the state of `exec_add`, whose result is the sum as a number. -/
theorem addWrapsModulo256 : Obligations.AddWrapsModulo256 := by
  refine ⟨fun c hc _ _ _ => decodeBytes_byteOf hc (m := .add) (c.recognizes_dispatched rfl) (Nat.le_add_left _ _),
    fun a b s => ⟨_, exec_add a b s, ?_, s.binary_advance_frame aluAdd a b rfl⟩⟩
  rw [State.readReg_advance, State.readReg_binary, aluAdd_toNat]

/-- Settles O5: the state of `exec_mul`, whose result is the product as a number. -/
theorem mulKeepsLowByte : Obligations.MulKeepsLowByte := by
  refine ⟨fun c hc _ _ _ => decodeBytes_byteOf hc (m := .mul) (c.recognizes_dispatched rfl) (Nat.le_add_left _ _),
    fun a b s => ⟨_, exec_mul a b s, ?_, s.binary_advance_frame aluMul a b rfl⟩⟩
  rw [State.readReg_advance, State.readReg_binary, aluMul_toNat]

/-- Settles O6: the state of `exec_cmp`, which differs from the old one in FL and pc alone. -/
theorem cmpWritesOneFlag : Obligations.CmpWritesOneFlag := by
  refine ⟨fun c hc hfull _ _ _ =>
      decodeBytes_byteOf hc (m := .cmp) (Config.recognizes_full hfull .cmp) (Nat.le_add_left _ _),
    fun a b s => ⟨_, exec_cmp a b s, ?_, fun _ _ => rfl, fun _ _ => rfl, State.advance_pc_toNat _ .cmp,
      rfl, rfl, rfl⟩⟩
  rw [State.advance_fl, State.writeFl_fl, compareFlags_eq_ite]

end Sys2Proof.Machine
end

section
/-! PROOFS. The family of 43_stack.md: PUSH, POP, CALL and RET, their faults under the fault policy, the wrap policy,
SP's limits, and the pairs PUSH and POP, CALL and RET. -/

namespace Sys2Proof.Machine

/-! ### A push's two steps (R160) -/

section
variable (s : State)

/-- The address a push stores to, as a number. -/
theorem State.pushAddr_toNat : s.pushAddr.toNat = (s.sp.toNat + 255) % 256 := by
  rw [State.pushAddr, BitVec.toNat_sub]
  exact congrArg (· % 256) (Nat.add_comm 255 s.sp.toNat)

/-- After a push SP is the address stored to. -/
theorem State.sp_storeTop_decSp (v : Byte) : (s.decSp.storeTop v).sp = s.pushAddr := s.sp_decSp

/-- Lowering SP changes no other register. -/
theorem State.sameRegsExcept_decSp : SameRegsExcept [7] s s.decSp := s.sameRegsExcept_writeReg 7 s.pushAddr

/-- A push changes no cell but the one below SP. -/
theorem State.sameMemExcept_storeTop_decSp (v : Byte) : SameMemExcept [s.pushAddr] s (s.decSp.storeTop v) := by
  intro a ha
  have hsp : s.decSp.sp = s.pushAddr := s.sp_decSp
  rw [State.storeTop_eq, hsp, State.memRead_memWrite, if_neg (List.ne_of_not_mem_cons ha)]
  rfl

end

/-! ### A pop's last step, after a register write (R160, R165) -/

section
variable (s : State)

/-- SP after it is raised, as a number. -/
theorem State.sp_incSp_toNat : s.incSp.sp.toNat = (s.sp.toNat + 1) % 256 := by
  rw [State.sp_incSp, BitVec.toNat_add]
  rfl

/-- Raising SP changes no other register. -/
theorem State.sameRegsExcept_incSp : SameRegsExcept [7] s s.incSp := s.sameRegsExcept_writeReg 7 _

variable {a : Reg} (v : Byte)

/-- A register other than SP keeps the value written when SP is raised. -/
theorem State.readReg_incSp_writeReg (h : a ≠ 7) : (s.writeReg a v).incSp.readReg a = v := by
  rw [State.incSp_eq, State.readReg_writeReg, if_neg h, State.readReg_writeReg, if_pos rfl]

/-- SP counts on from its old value where the register written is another one. -/
theorem State.sp_incSp_writeReg_toNat (h : a ≠ 7) : (s.writeReg a v).incSp.sp.toNat = (s.sp.toNat + 1) % 256 := by
  rw [State.sp_incSp_toNat, State.sp_writeReg, if_neg h.symm]

/-- SP counts on from the value written to it (D13). -/
theorem State.sp_incSp_writeReg_spIndex_toNat : (s.writeReg 7 v).incSp.sp.toNat = (v.toNat + 1) % 256 := by
  rw [State.sp_incSp_toNat, State.sp_writeReg, if_pos rfl]

/-- A pop changes no register but its operand and SP. -/
theorem State.sameRegsExcept_incSp_writeReg : SameRegsExcept [a, 7] s (s.writeReg a v).incSp := by
  intro q hq
  obtain ⟨hqa, hq7⟩ : q ≠ a ∧ q ∉ [7] := not_or.mp (mt List.mem_cons.mpr hq)
  rw [State.sameRegsExcept_incSp _ q hq7, State.readReg_writeReg, if_neg hqa]

end

/-- Settles O18: the facts of the two steps above, and at reset SP is 0xF4. -/
theorem pushStepThenPopStep : Obligations.PushStepThenPopStep := by
  intro s v
  refine ⟨?_, ?_, s.sameRegsExcept_decSp, s.sameMemExcept_storeTop_decSp v, rfl, rfl, s.sp_incSp_toNat,
    s.sameRegsExcept_incSp, fun _ _ => rfl, rfl, State.reset.memRead_pushAddr_storeTop v⟩
  · rw [State.sp_storeTop_decSp, State.pushAddr_toNat]
  · rw [State.sp_storeTop_decSp, State.memRead_pushAddr_storeTop]

/-! ### PUSH, POP, CALL and RET without a fault (R164 to R167) -/

/-- Settles O7: the state of `exec_push_stores`, with the facts of a push's two steps. -/
theorem pushStoresBelowSp : Obligations.PushStoresBelowSp := by
  refine ⟨fun c hc _ _ => decodeBytes_byteOf hc (m := .push) (c.recognizes_dispatched rfl) (Nat.le_add_left _ _),
    fun a s h => ⟨_, exec_push_stores a (State.pushOverflows_false h), s.pushAddr_toNat, s.sp_decSp, ?_,
      s.sameRegsExcept_decSp, s.sameMemExcept_storeTop_decSp (s.decSp.readReg a), State.advance_pc_toNat _ .push,
      rfl, rfl, rfl, rfl⟩⟩
  rw [State.memRead_advance, State.memRead_pushAddr_storeTop, State.readReg_decSp]

/-- Settles O8: the state of `exec_pop_loads`, with the facts of a pop's last step. -/
theorem popLoadsTop : Obligations.PopLoadsTop := by
  refine ⟨fun c hc _ _ => decodeBytes_byteOf hc (m := .pop) (c.recognizes_dispatched rfl) (Nat.le_add_left _ _),
    fun a s h => ⟨_, exec_pop_loads a (State.popUnderflows_false h), fun ha => ?_, ?_,
      s.sameRegsExcept_incSp_writeReg _, fun _ _ => rfl, State.advance_pc_toNat _ .pop, rfl, rfl, rfl, rfl⟩⟩
  · exact ⟨s.readReg_incSp_writeReg _ ha, s.sp_incSp_writeReg_toNat _ ha⟩
  · rintro rfl
    exact s.sp_incSp_writeReg_spIndex_toNat s.loadTop

/-- Settles O9: the state of `exec_call_calls`, with the facts of a push's two steps. -/
theorem callPushesReturnAddress : Obligations.CallPushesReturnAddress := by
  refine ⟨fun c hc _ _ => decodeBytes_byteOf hc (m := .call) (c.recognizes_dispatched rfl) (Nat.le_add_left _ _),
    fun a s h => ⟨_, exec_call_calls a (State.pushOverflows_false h), s.pushAddr_toNat, s.sp_decSp, ?_,
      s.readReg_decSp a, s.sameRegsExcept_decSp, s.sameMemExcept_storeTop_decSp (s.decSp.nextPc .call),
      rfl, rfl, rfl, rfl⟩⟩
  rw [State.memRead_jump, State.memRead_pushAddr_storeTop]
  exact s.nextPc_toNat .call

/-- Settles O10: the state of `exec_ret_returns`, where SP is raised. -/
theorem retPopsPc : Obligations.RetPopsPc :=
  ⟨fun c hc _ => decodeBytes_byteOf hc (m := .ret) (c.recognizes_dispatched rfl) (Nat.zero_le _),
    fun s h => ⟨_, exec_ret_returns (State.popUnderflows_false h), rfl, s.sp_incSp_toNat, s.sameRegsExcept_incSp,
      fun _ _ => rfl, rfl, rfl, rfl, rfl⟩⟩

/-! ### The stack faults and the wrap policy (R161 to R163) -/

/-- Settles O14: the overflow is the condition of both faults. -/
theorem pushAndCallOverflowAtZero : Obligations.PushAndCallOverflowAtZero := by
  intro a s hpolicy hsp
  have hover : s.pushOverflows = true := s.pushOverflows_iff.mpr ⟨hpolicy, hsp⟩
  exact ⟨exec_push_faults a hover, exec_call_faults a hover⟩

/-- Settles O15: the underflow is the condition of both faults. -/
theorem popAndRetUnderflowFromInit : Obligations.PopAndRetUnderflowFromInit := by
  intro a s hpolicy hsp
  have hunder : s.popUnderflows = true := s.popUnderflows_iff.mpr ⟨hpolicy, hsp⟩
  exact ⟨exec_pop_faults a hunder, exec_ret_faults hunder⟩

/-- Settles O16: under the wrap policy each of the four has the next state of its own statement, here at three
values of SP. -/
theorem wrapPolicyHasNoStackChecks : Obligations.WrapPolicyHasNoStackChecks := by
  intro a s hwrap
  obtain ⟨p, hp, -, hpsp, hpcell, -, -, -, -, hprun, -⟩ := pushStoresBelowSp.2 a s (.inl hwrap)
  obtain ⟨q, hq, -, hqsp, hqcell, -, -, -, -, hqrun, -⟩ := callPushesReturnAddress.2 a s (.inl hwrap)
  obtain ⟨u, hu, hua, -, -, -, -, -, hurun, -⟩ := popLoadsTop.2 a s (.inl hwrap)
  obtain ⟨v, hv, hvpc, hvsp, -, -, -, hvrun, -⟩ := retPopsPc.2 s (.inl hwrap)
  refine ⟨p, q, u, v, hp, hq, hu, hv, hprun, hqrun, hurun, hvrun, fun hsp => ?_, fun hsp => ?_, fun hsp => ?_⟩
  · have hbelow : s.pushAddr = 0xFF := by rw [State.pushAddr, hsp]; rfl
    rw [hbelow] at hpsp hpcell hqsp hqcell
    exact ⟨hpcell, hpsp, hqcell, hqsp⟩
  all_goals
    rw [hsp] at hua hvpc hvsp
    exact ⟨fun ha => ⟨(hua ha).1, BitVec.eq_of_toNat_eq (hua ha).2⟩, hvpc, BitVec.eq_of_toNat_eq hvsp⟩

/-! ### SP's limits (R160 to R162) -/

/-- What an instruction does to SP that is not LDI, ADD, MUL or POP to R7: nothing, a push's step down with no overflow,
or a pop's step up with no underflow. -/
theorem exec_sp_cases {i : Instr} {s t : State} (hldi : ∀ v, i ≠ .ldi 7 v) (hadd : ∀ b, i ≠ .add 7 b)
    (hmul : ∀ b, i ≠ .mul 7 b) (hpop : i ≠ .pop 7) (h : exec i s = .next t) :
    t.sp = s.sp ∨ (s.pushOverflows = false ∧ t.sp = s.pushAddr) ∨
      (s.popUnderflows = false ∧ t.sp.toNat = (s.sp.toNat + 1) % 256) := by
  cases i with
  | push a =>
    cases hb : s.pushOverflows with
    | true => rw [exec_push_faults a hb] at h; cases h; exact .inl rfl
    | false => rw [exec_push_stores a hb] at h; cases h; exact .inr (.inl ⟨rfl, s.sp_decSp⟩)
  | call a =>
    cases hb : s.pushOverflows with
    | true => rw [exec_call_faults a hb] at h; cases h; exact .inl rfl
    | false => rw [exec_call_calls a hb] at h; cases h; exact .inr (.inl ⟨rfl, s.sp_decSp⟩)
  | pop a =>
    have ha : a ≠ 7 := fun e => hpop (congrArg _ e)
    cases hb : s.popUnderflows with
    | true => rw [exec_pop_faults a hb] at h; cases h; exact .inl rfl
    | false => rw [exec_pop_loads a hb] at h; cases h; exact .inr (.inr ⟨rfl, s.sp_incSp_writeReg_toNat _ ha⟩)
  | ret =>
    cases hb : s.popUnderflows with
    | true => rw [exec_ret_faults hb] at h; cases h; exact .inl rfl
    | false => rw [exec_ret_returns hb] at h; cases h; exact .inr (.inr ⟨rfl, s.sp_incSp_toNat⟩)
  | ldi a v =>
    cases h
    exact .inl ((s.sp_writeReg a v).trans (if_neg fun e : 7 = a => hldi v (by rw [e])))
  | add a b =>
    cases h
    exact .inl ((s.sp_writeReg a _).trans (if_neg fun e : 7 = a => hadd b (by rw [e])))
  | mul a b =>
    cases h
    exact .inl ((s.sp_writeReg a _).trans (if_neg fun e : 7 = a => hmul b (by rw [e])))
  | _ => cases h; exact .inl rfl

/-- Settles O17: under the fault policy a push steps down from SP not 0 and a pop steps up from SP below 0xF4. -/
theorem stackStaysWithinLimits : Obligations.StackStaysWithinLimits := by
  intro i s t hpolicy hsp hldi hadd hmul hpop h
  rcases exec_sp_cases hldi hadd hmul hpop h with heq | ⟨hroom, heq⟩ | ⟨hroom, heq⟩
  · rw [heq]
    omega
  · have hne : s.sp.toNat ≠ 0 := fun e =>
      Bool.eq_false_iff.mp hroom (s.pushOverflows_iff.mpr ⟨hpolicy, BitVec.eq_of_toNat_eq e⟩)
    rw [heq, s.pushAddr_toNat]
    omega
  · have hlt : ¬ 0xF4 ≤ s.sp.toNat := fun hge =>
      Bool.eq_false_iff.mp hroom (s.popUnderflows_iff.mpr ⟨hpolicy, hge⟩)
    omega

/-! ### The pairs (R168, R169) -/

/-- Raising SP undoes lowering it: one above the push address is SP itself (R160). -/
theorem State.sp_eq_of_toNat_pushAddr {s u : State} (h : u.sp.toNat = (s.pushAddr.toNat + 1) % 256) : u.sp = s.sp := by
  have hlt : s.sp.toNat < 256 := s.sp.isLt
  rw [s.pushAddr_toNat] at h
  exact BitVec.eq_of_toNat_eq (by omega)

/-- Settles O19: POP reads the cell PUSH stored to, and raises SP again. -/
theorem pushThenPopMovesRegister : Obligations.PushThenPopMovesRegister := by
  intro n m s hm hroom
  obtain ⟨t, ht, haddr, hsp, hcell, -, -, -, -, hrun, -, hconfig⟩ :=
    pushStoresBelowSp.2 n s (hroom.imp_right And.left)
  have hroom' : t.config.stackPolicy = .wrap ∨ t.sp.toNat < 0xF4 := by
    rw [hconfig, hsp, haddr]
    refine hroom.imp_right fun ⟨hne, hle⟩ => ?_
    have hpos : s.sp.toNat ≠ 0 := fun e => hne (BitVec.eq_of_toNat_eq e)
    omega
  obtain ⟨u, hu, hload, -, -, -, -, -, hrun', -⟩ := popLoadsTop.2 m t hroom'
  obtain ⟨hreg, hsp'⟩ := hload hm
  rw [hsp] at hreg hsp'
  exact ⟨t, u, ht, hu, hreg.trans hcell, State.sp_eq_of_toNat_pushAddr hsp', hrun'.trans hrun⟩

/-- Settles O20: RET takes pc from the cell CALL stored to, and raises SP again. -/
theorem callThenRetReturns : Obligations.CallThenRetReturns := by
  intro n s hroom
  obtain ⟨t, ht, -, hsp, hcell, hpc, -⟩ := callPushesReturnAddress.2 n s hroom
  refine ⟨t, ht, fun hn => hpc.trans (if_neg hn), fun u husp hucell hroom' => ?_⟩
  obtain ⟨v, hv, hvpc, hvsp, -⟩ := retPopsPc.2 u hroom'
  refine ⟨v, hv, ?_, ?_⟩
  · rw [hvpc, hucell, hsp, hcell]
  · rw [husp, hsp] at hvsp
    exact State.sp_eq_of_toNat_pushAddr hvsp

end Sys2Proof.Machine
end

section
/-! PROOFS. The family of 44_branch.md: JMP, JEQ and JNE, the JMP to its own address, and the dispatched set, which has
none of the three nor CMP. -/

namespace Sys2Proof

/-- The dispatched set recognizes exactly what the declared set does not add (R76). -/
theorem Config.recognizes_of_declaredSet_dispatched {c : Config} (h : c.declaredSet = .dispatched) (m : Mnemonic) :
    c.recognizes m = !m.declaredOnly := by
  simp only [Config.recognizes, h]

/-- Under the dispatched set the byte of an operation of the declared set is no other operation's, by R77, so the lookup
finds nothing (R80). -/
theorem Config.lookup_byteOf_declaredOnly {c : Config} (hc : c.wf = true) (hset : c.declaredSet = .dispatched)
    {m : Mnemonic} (hm : m.declaredOnly = true) : c.lookup (c.opcodeMap.byteOf m) = none := by
  refine Config.lookup_none.mpr fun k hk hbyte => ?_
  rw [OpcodeMap.byteOf_inj hc hbyte, Config.recognizes_of_declaredSet_dispatched hset, hm] at hk
  cases hk

end Sys2Proof

namespace Sys2Proof.Machine

/-! ### A jump and its condition (R105, R180) -/

section
variable (s : State)

/-- A jump changes pc alone (R105). -/
theorem State.jump_frame (target : Addr) :
    SameRegsExcept [] s (s.jump target) ∧ SameMemExcept [] s (s.jump target) ∧ (s.jump target).fl = s.fl ∧
      (s.jump target).run = s.run ∧ (s.jump target).out = s.out ∧ (s.jump target).config = s.config :=
  ⟨fun _ _ => rfl, fun _ _ => rfl, rfl, rfl, rfl, rfl⟩

/-- E is FL's value modulo 2. -/
theorem State.flagE_eq_decide : s.flagE = decide (s.fl.toNat % 2 = 1) := by
  rw [State.flagE_eq, BitVec.getLsbD, Nat.testBit_zero]

variable {m : Mnemonic} {taken : Bool} (a : Reg)

/-- A jump that is taken goes to the register's value (R180). -/
theorem State.branch_pc_of_taken (h : taken = true) : (s.branch m taken a).pc = s.readReg a := by
  rw [h]
  rfl

/-- A jump that is not taken passes its operation's bytes (R180). -/
theorem State.branch_pc_toNat_of_not_taken (h : taken = false) :
    (s.branch m taken a).pc.toNat = (s.pc.toNat + m.operandCount + 1) % 256 := by
  rw [h]
  exact s.nextPc_toNat m

end

/-! ### JMP, JEQ and JNE (R181, R182, R183) -/

/-- JMP's next state: a jump to the register's value (R181). -/
theorem exec_jmp (a : Reg) (s : State) : exec (.jmp a) s = .next (s.jump (s.readReg a)) := rfl

/-- JEQ's next state: a branch that E takes (R182). -/
theorem exec_jeq (a : Reg) (s : State) : exec (.jeq a) s = .next (s.branch .jeq s.flagE a) := rfl

/-- JNE's next state: a branch that E does not take (R183). -/
theorem exec_jne (a : Reg) (s : State) : exec (.jne a) s = .next (s.branch .jne (!s.flagE) a) := rfl

/-- Settles O11: the state of `exec_jmp`. -/
theorem jmpJumpsToRegister : Obligations.JmpJumpsToRegister :=
  ⟨fun _ hc hfull _ _ => decodeBytes_byteOf hc (m := .jmp) (Config.recognizes_full hfull .jmp) (Nat.le_add_left _ _),
    fun a s => ⟨_, exec_jmp a s, rfl, s.jump_frame (s.readReg a)⟩⟩

/-- Settles O12: the state of `exec_jeq`, whose branch is taken where FL is odd. -/
theorem jeqJumpsIfEqual : Obligations.JeqJumpsIfEqual := by
  refine ⟨fun _ hc hfull _ _ =>
      decodeBytes_byteOf hc (m := .jeq) (Config.recognizes_full hfull .jeq) (Nat.le_add_left _ _),
    fun a s => ⟨_, exec_jeq a s, fun hodd => s.branch_pc_of_taken a ?_,
      fun heven => s.branch_pc_toNat_of_not_taken a ?_, s.jump_frame _⟩⟩
  · simp [State.flagE_eq_decide, hodd]
  · simp [State.flagE_eq_decide, heven]

/-- Settles O13: the state of `exec_jne`, whose branch is taken where FL is even. -/
theorem jneJumpsIfNotEqual : Obligations.JneJumpsIfNotEqual := by
  refine ⟨fun _ hc hfull _ _ =>
      decodeBytes_byteOf hc (m := .jne) (Config.recognizes_full hfull .jne) (Nat.le_add_left _ _),
    fun a s => ⟨_, exec_jne a s, fun heven => s.branch_pc_of_taken a ?_,
      fun hodd => s.branch_pc_toNat_of_not_taken a ?_, s.jump_frame _⟩⟩
  · simp [State.flagE_eq_decide, heven]
  · simp [State.flagE_eq_decide, hodd]

/-! ### A JMP to its own address (R109, R181) -/

/-- A machine whose step answers the same state is there after any number of steps. -/
theorem run_of_step_self {M : Host.Core} {s : M.State} (h : M.step s = .next s) (n : Nat) : M.run n s = .next s := by
  induction n with
  | zero => rfl
  | succ n ih =>
    rw [Host.Core.run, h]
    exact ih

/-- A run from a state whose step answers the same state stays there. -/
theorem Reaches.eq_of_step_self {s t : State} (h : Reaches s t) (hself : step s = .next s) : t = s := by
  induction h with
  | refl => rfl
  | tail _ hstep ih =>
    rw [ih, hself] at hstep
    cases hstep
    rfl

/-- A RUNNING machine is safe (R32). -/
theorem State.safe_of_running {s : State} (h : s.run = .running) : s.Safe := by
  intro kind fpc fop
  simp [h]

/-- Under the full set a RUNNING machine at JMP's byte jumps to the value of the register its operand byte names
(R181). -/
theorem step_jmp {s : State} (hwf : s.config.wf = true) (hfull : s.config.declaredSet = .full)
    (hrun : s.run = .running) (hop : s.opcodeByte = s.config.opcodeMap.jmp) :
    step s = .next (s.jump (s.readReg (regOf s.operandByte1))) := by
  have hl : s.config.lookup s.opcodeByte = some .jmp := by
    rw [hop]
    exact Config.lookup_byteOf hwf (Config.recognizes_full hfull .jmp)
  exact (step_of_lookup hwf hrun hl).trans (exec_jmp _ s)

/-- Settles O44: a jump to pc itself changes nothing, so the step of `step_jmp` answers the same state. -/
theorem jumpToSelfRunsForever : Obligations.JumpToSelfRunsForever := by
  intro s n hrun hwf hfull hop htarget
  have htarget' : s.readReg (regOf s.operandByte1) = s.pc := htarget
  have hself : step s = .next s := by
    rw [step_jmp hwf hfull hrun hop, htarget']
    rfl
  refine ⟨run_of_step_self (M := Sys2Proof.core) hself n, fun t ht => ?_⟩
  rw [ht.eq_of_step_self hself]
  exact State.safe_of_running hrun

/-! ### The dispatched set (R146, R180) -/

/-- Settles O45: the lookup finds none of the four bytes. -/
theorem dispatchedSetRejectsDeclared : Obligations.DispatchedSetRejectsDeclared := by
  intro s hrun hwf hset hop
  obtain ⟨m, hm, hbyte⟩ : ∃ m : Mnemonic, m.declaredOnly = true ∧ s.opcodeByte = s.config.opcodeMap.byteOf m := by
    rcases hop with h | h | h | h
    · exact ⟨.cmp, rfl, h⟩
    · exact ⟨.jmp, rfl, h⟩
    · exact ⟨.jeq, rfl, h⟩
    · exact ⟨.jne, rfl, h⟩
  have hl : s.config.lookup s.opcodeByte = none := by
    rw [hbyte]
    exact Config.lookup_byteOf_declaredOnly hwf hset hm
  exact step_of_lookup_none hrun hl

end Sys2Proof.Machine
end

section
/-! PROOFS. The family of 60_exceptions.md: a step that faults changes the run state alone, and each kind of fault is
taken exactly under its condition. -/

namespace Sys2Proof.Machine

variable {s t : State}

/-! ### Fault entry (R106, R201) -/

/-- A step that faults answers the old state with the fault taken at pc, under any parameters (R201). -/
theorem step_eq_raiseFault {k : FaultKind} {p o : Byte} (h : step s = .next t) (hfault : t.run = .faulted k p o) :
    t = s.raiseFault k s.opcodeByte := by
  obtain ⟨hrun, ⟨i, rest, hd, hi⟩ | ⟨e, -, rfl⟩⟩ := step_cases h
  · have hop : s.opcodeOf i.mnemonic = s.opcodeByte := (State.fetchDecode_ok hd).2
    rcases exec_run_cases hi with ⟨hkeep, -⟩ | ⟨-, hhalt⟩ | ⟨rfl, -⟩ | ⟨rfl, -⟩
    · simp [hkeep, hrun] at hfault
    · simp [hhalt] at hfault
    all_goals
      cases hfault
      rw [hop]
  · cases hfault
    rfl

/-- Settles O41: the fault taken changes the run state alone. -/
theorem faultChangesOnlyRunState : Obligations.FaultChangesOnlyRunState :=
  fun s _ k _ _ h hfault => (step_eq_raiseFault h hfault).trans (s.raiseFault_eq k s.opcodeByte)

/-! ### The condition of each fault (R200) -/

/-- At the byte of a recognized operation a RUNNING machine runs that operation, under a map that keeps R77 (R102). -/
theorem step_of_opcodeByte_eq {m : Mnemonic} (hwf : s.config.wf = true) (hrun : s.run = .running)
    (hm : s.config.recognizes m = true) (hop : s.opcodeByte = s.opcodeOf m) :
    step s = exec (m.instr s.operandByte1 s.operandByte2) s :=
  step_of_lookup hwf hrun (hop ▸ Config.lookup_byteOf hwf hm)

/-- A RUNNING machine takes a fault wherever the record that the fault would leave is true (R200). -/
theorem step_of_faultRecordTrue {k : FaultKind} (hwf : s.config.wf = true) (hrun : s.run = .running)
    (hrecord : (s.raiseFault k s.opcodeByte).RunRecordTrue) : step s = .next (s.raiseFault k s.opcodeByte) := by
  cases k with
  | unrecognizedOpcode =>
    obtain ⟨-, -, hnone⟩ := hrecord
    exact step_of_lookup_none hrun (Config.lookup_none.mpr hnone)
  | stackOverflow =>
    obtain ⟨-, -, hpolicy, hsp, hop⟩ := hrecord
    have hover : s.pushOverflows = true := s.pushOverflows_iff.mpr ⟨hpolicy, hsp⟩
    rcases hop with hop | hop
    all_goals rw [step_of_opcodeByte_eq hwf hrun (s.config.recognizes_dispatched rfl) hop, hop]
    · exact exec_push_faults _ hover
    · exact exec_call_faults _ hover
  | stackUnderflow =>
    obtain ⟨-, -, hpolicy, hsp, hop⟩ := hrecord
    have hunder : s.popUnderflows = true := s.popUnderflows_iff.mpr ⟨hpolicy, hsp⟩
    rcases hop with hop | hop
    all_goals rw [step_of_opcodeByte_eq hwf hrun (s.config.recognizes_dispatched rfl) hop, hop]
    · exact exec_pop_faults _ hunder
    · exact exec_ret_faults hunder

/-- A step takes a fault of a kind exactly where the record that the fault would leave is true (R200). -/
theorem step_faults_iff (hwf : s.config.wf = true) (h : step s = .next t) (k : FaultKind) :
    (∃ p o, t.run = .faulted k p o) ↔ (s.raiseFault k s.opcodeByte).RunRecordTrue := by
  constructor
  · rintro ⟨p, o, hfault⟩
    exact step_eq_raiseFault h hfault ▸ step_recordTrue hwf h
  · intro hrecord
    rw [step_of_faultRecordTrue hwf (step_cases h).1 hrecord] at h
    cases h
    exact ⟨_, _, rfl⟩

/-- The host's exit status for each kind of fault (R37). -/
theorem State.exitStatus_raiseFault (s : State) (k : FaultKind) (op : Byte) :
    (s.raiseFault k op).exitStatus =
      some (if k = .unrecognizedOpcode then 3 else s.config.stackFaultExitStatus) := by
  cases k <;> rfl

/-- What a fault leaves behind: its record names the old pc and the byte there, and its kind gives the exit status
(R37, R201). -/
theorem step_fault_record {k : FaultKind} {p o : Byte} (h : step s = .next t) (hfault : t.run = .faulted k p o) :
    p = s.pc ∧ o = s.memRead s.pc ∧
      t.exitStatus = some (if k = .unrecognizedOpcode then 3 else s.config.stackFaultExitStatus) := by
  obtain rfl := step_eq_raiseFault h hfault
  cases hfault
  exact ⟨rfl, rfl, s.exitStatus_raiseFault k _⟩

/-- Settles O40: the record of a fault taken at pc names pc and its byte, so that it is true says the kind's
condition and no more. -/
theorem faultsAreExactlyTheThree : Obligations.FaultsAreExactlyTheThree := by
  intro s t hwf h
  refine ⟨(step_faults_iff hwf h .unrecognizedOpcode).trans ?_, (step_faults_iff hwf h .stackOverflow).trans ?_,
    (step_faults_iff hwf h .stackUnderflow).trans ?_, fun _ _ _ => step_fault_record h⟩
  all_goals exact ⟨fun ⟨_, _, hcause⟩ => hcause, fun hcause => ⟨rfl, rfl, hcause⟩⟩

end Sys2Proof.Machine
end
